-- ==== Sys2Proof/Word.lean ====
section
/-! DEFINITION. The bit vectors the spec names (00_scope.md R7; 30_encoding.md R36, R38). -/
namespace Sys2Proof

/-- A 32-bit unsigned value: the accumulator, `hash_out` (10_state.md R11, R13). -/
abbrev Word := BitVec 32

/-- One byte of input, 0 to 255 (00_scope.md R5; 30_encoding.md R39). -/
abbrev Byte := BitVec 8

/-- The 10-bit command word `cmd[9:0]` (30_encoding.md R36). -/
abbrev Cmd := BitVec 10

/-- One clock edge as the 11-bit edge word `{rst, cmd[9:0]}` (30_encoding.md R38). -/
abbrev EdgeWord := BitVec 11

end Sys2Proof
end

