-- ==== Sys2Proof/Syntax.lean ====
section
/-! DEFINITION. What can happen at a clock edge, one constructor per row of opcode_table.json
(30_encoding.md R37, R38), and the lines of the spec's assembler notation (R43, R44). -/
namespace Sys2Proof

/-- One clock edge. `reset` is an edge with `rst` = 1 and no command of the `cmd` port (R38; log entry 8);
the others are the four commands. Ignored bits are no operand (R41); the byte is 8 bits by type (R39). -/
inductive Instr where
  | reset
  | hold
  | absorb (data : Byte)
  | init
  | start (data : Byte)
  deriving DecidableEq, Repr

/-- One line of a listing, its operands as the numbers the programmer wrote, not yet range-checked:
`imm8` of ABSORB and START, `<bytes>` of the pseudo-instructions (R43, R44). -/
inductive SourceLine where
  | reset
  | hold
  | init
  | absorb (imm : Nat)
  | start (imm : Nat)
  | nop
  | absorbs (bytes : List Nat)
  | hash (bytes : List Nat)
  | hashf (bytes : List Nat)
  deriving DecidableEq, Repr

end Sys2Proof
end

