-- ==== Sys2Proof/WellFormed.lean ====
section
/-! DEFINITION. The checks the notation asks for. An `Instr` needs none: every command word is legal
(30_encoding.md R40) and its byte is 8 bits by type. What can be ill formed is what a programmer writes. -/
namespace Sys2Proof

/-- "imm8 is a decimal number 0 to 255" (R43): the operand fits the 8-bit field. -/
def isImm8 (n : Nat) : Bool := decide (n ≤ 255)

/-- "printable ASCII" (R43, R44): the codes 0x20 to 0x7E (log entry 19). -/
def isPrintable (c : Char) : Bool := decide (0x20 ≤ c.toNat) && decide (c.toNat ≤ 0x7E)

/-- An edge word is written 0x000 to 0x7FF (R38): a number of at most 11 bits. -/
def isEdgeNumber (w : Nat) : Bool := decide (w < 2 ^ 11)

/-- Every operand of the line fits 8 bits; "An operand outside 0 to 255 is an assembler error" (R43). -/
def SourceLine.wellFormed : SourceLine → Bool
  | .reset => true
  | .hold => true
  | .init => true
  | .absorb n => isImm8 n
  | .start n => isImm8 n
  | .nop => true
  | .absorbs bs => bs.all isImm8
  | .hash bs => bs.all isImm8
  | .hashf bs => bs.all isImm8

end Sys2Proof
end

