-- ==== Sys2Proof/Decode.lean ====
section
/-! DEFINITION. Decoding and encoding of edge words (30_encoding.md R37, R38, R40, R41): the fields, the
decoder, the encoder, and the table of R38 as data. -/
namespace Sys2Proof

/-- `cmd[9]`, the field `I`: use `SEED` instead of `H` (R37). -/
def cmdI (cmd : Cmd) : Bool := cmd.getLsbD 9

/-- `cmd[8]`, the field `A`: take in the byte (R37). -/
def cmdA (cmd : Cmd) : Bool := cmd.getLsbD 8

/-- `cmd[7:0]`, the field `data` (R37, R39). -/
def cmdData (cmd : Cmd) : Byte := cmd.extractLsb' 0 8

/-- `ew[10]`, the value of `rst` at the edge (R38). -/
def edgeRst (ew : EdgeWord) : Bool := ew.getLsbD 10

/-- `ew[9:0]`, the value of `cmd` at the edge (R38). -/
def edgeCmd (ew : EdgeWord) : Cmd := ew.extractLsb' 0 10

/-- `{rst, cmd[9:0]}` (R38). -/
def edgeWord (rst : Bool) (cmd : Cmd) : EdgeWord := BitVec.ofBool rst ++ cmd

/-- The command a command word is, "by `cmd[9:8]` alone" (R37, R40); it depends on nothing else (R42). -/
def decodeCmd (cmd : Cmd) : Instr :=
  match cmdI cmd, cmdA cmd with
  | false, false => .hold
  | false, true => .absorb (cmdData cmd)
  | true, false => .init
  | true, true => .start (cmdData cmd)

/-- What happens at the edge: `rst` wins and `cmd` is then ignored entirely (R38, R79). Total (R38). -/
def decode (ew : EdgeWord) : Instr :=
  if edgeRst ew then .reset else decodeCmd (edgeCmd ew)

/-- Why a number is no edge word. Raised by `decodeNumber` only; the block never sees such a number, its
ports being 11 wires. Safe: nothing is run. -/
inductive DecodeError where
  /-- The number has a bit above bit 10 (R38: edge words are 0x000 to 0x7FF). -/
  | moreThanElevenBits
  deriving DecidableEq, Repr

/-- The edge word a number of a listing stands for, rejecting by name and never truncating (R38; log
entry 7). -/
def edgeOfNumber (w : Nat) : Except DecodeError EdgeWord :=
  if isEdgeNumber w then .ok (BitVec.ofNat 11 w) else .error .moreThanElevenBits

/-- Decoding of any number. -/
def decodeNumber (w : Nat) : Except DecodeError Instr :=
  match edgeOfNumber w with
  | .ok ew => .ok (decode ew)
  | .error e => .error e

/-- The decoder as the opcode table numbers the bits, bit 0 the least significant of the edge word; bits at
`nbits` and above are 0 (log entry 7). -/
def decodeTableWord (nbits w : Nat) : Option Instr :=
  match decodeNumber (w % 2 ^ nbits) with
  | .ok i => some i
  | .error _ => none

/-- The command word of format C: `op` in `cmd[9:8]`, `data` in `cmd[7:0]` (R37). -/
def formatC (op : BitVec 2) (data : Byte) : Cmd := op ++ data

/-- The canonical edge word of an instruction (R37, R38, R41, R43): 0 in every ignored bit. -/
def encode : Instr → EdgeWord
  | .reset => edgeWord true (formatC 0b00#2 0x00#8)
  | .hold => edgeWord false (formatC 0b00#2 0x00#8)
  | .absorb b => edgeWord false (formatC 0b01#2 b)
  | .init => edgeWord false (formatC 0b10#2 0x00#8)
  | .start b => edgeWord false (formatC 0b11#2 b)

/-- One row of R38's table. -/
structure OpcodeRow where
  mnemonic : String
  matchBits : EdgeWord
  mask : EdgeWord
  deriving DecidableEq, Repr

/-- R38's table, row by row, in its order. -/
def opcodeTable : List OpcodeRow :=
  [⟨"RESET", 0x400#11, 0x400#11⟩,
   ⟨"HOLD", 0x000#11, 0x700#11⟩,
   ⟨"ABSORB", 0x100#11, 0x700#11⟩,
   ⟨"INIT", 0x200#11, 0x700#11⟩,
   ⟨"START", 0x300#11, 0x700#11⟩]

/-- A decoder must mask, not compare whole words (R41). -/
def OpcodeRow.admits (r : OpcodeRow) (ew : EdgeWord) : Bool := ew &&& r.mask == r.matchBits

/-- The mnemonic of an instruction (R37, R38). -/
def mnemonic : Instr → String
  | .reset => "RESET"
  | .hold => "HOLD"
  | .absorb _ => "ABSORB"
  | .init => "INIT"
  | .start _ => "START"

/-- The bits of an edge word that its instruction ignores: all of `cmd` at RESET, `data` at HOLD and INIT
(R41). -/
def ignoredBits : Instr → EdgeWord
  | .reset => 0x3FF#11
  | .hold => 0x0FF#11
  | .absorb _ => 0x000#11
  | .init => 0x0FF#11
  | .start _ => 0x000#11

end Sys2Proof
end

