-- ==== Sys2Proof/Config.lean ====
section
/-! DEFINITION. What the spec leaves open: one free value and the two open parameters
(92_eei_decisions.md, "Open parameters, in one place"; 93_implementation_defined.md U1). -/
namespace Sys2Proof.Config

/-- FREE VALUE. What `hash_out` shows at the host's look number `n` while `H` is unwritten: "any 32-bit
value, not necessarily the same at two looks" (10_state.md R16; U1). No body: nothing can be proved of a
value of it. Log entry 4. -/
opaque unwrittenLook : Nat → Word

/-- The host's open parameter `MAX_LEN`, a natural number, or `none` for unbounded (00_scope.md R6; D16). -/
structure HostParams where
  maxLen : Option Nat
  deriving DecidableEq, Repr

/-- The platform's open parameter `N_INST` (00_scope.md R6; D14). -/
structure PlatformParams where
  nInst : Nat
  deriving DecidableEq, Repr

/-- "N_INST >= 1" (00_scope.md R6). -/
def PlatformParams.legal (p : PlatformParams) : Bool := decide (1 ≤ p.nInst)

end Sys2Proof.Config
end

