-- ==== Sys2Proof/Machine/Datapath.lean ====
section
/-! DEFINITION. The wired constants and the arithmetic of the block: `SEED` and `Step`
(00_scope.md R5; 41_absorb_commands.md R51, R52). -/
namespace Sys2Proof.Machine

/-- `SEED`, 5381 (R5). Wired, not a register (R20). -/
def seed : Word := 0x00001505#32

/-- `SHIFT`, 5 (R5). Wired (R20). -/
def shiftDistance : Nat := 5

/-- `zext_32(b) = {0x000000, b}` (00_scope.md R8; 30_encoding.md R39). -/
def zext32 (b : Byte) : Word := b.setWidth 32

/-- `h << 5`, the bits above bit 31 dropped (R51). -/
def shifted (h : Word) : Word := h <<< shiftDistance

/-- `Step(h, b) = ((h << 5) + h) ^ zext_32(b)`, every operation on 32 bits (R51): the byte is combined by
exclusive-or, never by addition. -/
def hashStep (h : Word) (b : Byte) : Word := (shifted h + h) ^^^ zext32 b

/-- The same recurrence in unbounded natural numbers, before any reduction modulo 2^32 (R52, R53 item 5). -/
def hashStepUnbounded (x : Nat) (b : Byte) : Nat := (x * 32 + x) ^^^ b.toNat

/-- The multiplicative inverse of 33 modulo 2^32 (R53 item 4). -/
def inverseOf33 : Word := 0x3E0F83E1#32

/-- `Step` undone, for a known byte (R53 item 4). -/
def hashUnstep (r : Word) (b : Byte) : Word := inverseOf33 * (r ^^^ zext32 b)

end Sys2Proof.Machine
end

