-- ==== Sys2Proof/Machine/State.lean ====
section
/-! DEFINITION. The state of the machine and the ways a step can stop (10_state.md R10, R16; 60_exceptions.md
R68). -/
namespace Sys2Proof.Machine

/-- What `H` holds: a 32-bit value, or `unwritten`, the spec's own condition of `H` between power-on and the
first RESET, INIT or START (10_state.md R16; 70_reset_and_hazards.md R78, R80). Log entry 3. -/
inductive Accumulator where
  | unwritten
  | value (v : Word)
  deriving DecidableEq, Repr

/-- THE STATE OF THE BLOCK, all of it: "exactly one 32-bit register, the accumulator `H`", one field (R10). Every
meaning of an instruction is a function on this type and on nothing else (Machine/Ops.lean, `State.onBlock`). -/
structure Block where
  h : Accumulator
  deriving DecidableEq, Repr

/-- What the interface's `step` runs on: the block, and beside it the rest of the RUN, the edge words the host will
present, the next one first. `pending` is a parameter of a run and no state of the block (R9, R10, R17; D2); it stands
here because `step` takes no other argument (log entry 1). -/
structure State extends Block where
  pending : List EdgeWord
  deriving DecidableEq, Repr

/-- No constructor: the block "raises no exception, takes no trap, and has no fault, error or halt state"
(R68; log entry 17). -/
inductive Fault where
  deriving DecidableEq, Repr

/-- Why a step has no meaning. -/
inductive Refusal where
  /-- Raised by an arm of `exec` whose instruction has no meaning yet. No arm raises it. Safe. -/
  | notModelled (mnemonic : String)
  deriving DecidableEq, Repr

/-- Right after a clock edge with `rst` = 1: `H` = 0x00001505 (R15, R79). Nothing pending (log entries 1, 5). -/
def State.reset : State := { h := .value seed, pending := [] }

/-- At power-on, before any edge: `H` is unwritten (R16, R80). -/
def State.powerOn : State := { h := .unwritten, pending := [] }

end Sys2Proof.Machine
end

