-- ==== Sys2Proof/Machine/Operands.lean ====
section
/-! DEFINITION. The operand forms: the implicit accumulator, `SEED` in its place, and the immediate byte
(30_encoding.md R37, R39). There is no other operand form (R39) and no addressing mode (R56). -/
namespace Sys2Proof.Machine

/-- The implicit operand of HOLD and ABSORB: the value of `H` before the edge (R11, R54). -/
def operandH (b : Block) : Accumulator := b.h

/-- The operand of INIT and START: `SEED`, whatever `H` is (R37 field `I`, R48, R55). -/
def operandSeed : Accumulator := .value seed

/-- `base = (I == 1) ? SEED : H` (R37, R78). -/
def baseOperand (useSeed : Bool) (h : Accumulator) : Accumulator := if useSeed then operandSeed else h

end Sys2Proof.Machine
end

