-- ==== Sys2Proof/Machine/Ops.lean ====
section
/-! DEFINITION. The shared operations: taking in a byte, writing `H`, looking at `hash_out`, and the one step
function `Next` of R78. There is no memory operation (20_memory.md R25) and no exception is taken or returned
from (60_exceptions.md R72, R73): log entries 17 and 18. -/
namespace Sys2Proof.Machine

/-- `Step` on an accumulator: of an unwritten one the result is unwritten (10_state.md R16; R78). -/
def Accumulator.absorb (a : Accumulator) (b : Byte) : Accumulator :=
  match a with
  | .unwritten => .unwritten
  | .value v => .value (hashStep v b)

/-- `H <- a`: the one write a command makes, of the whole register (00_scope.md R8; 20_memory.md R29). -/
def Block.writeH (_ : Block) (a : Accumulator) : Block := { h := a }

/-- A change of the block, and of nothing else: what is pending is neither read nor changed (10_state.md R10, R18). -/
def State.onBlock (s : State) (f : Block → Block) : State := { s with toBlock := f s.toBlock }

/-- What the host sees on `hash_out` at its look number `look`: `H`, bit for bit (10_state.md R13); while `H`
is unwritten, a free value for each look (R16; log entry 4). Looking changes nothing (R50). -/
def hashOut (look : Nat) (b : Block) : Word :=
  match b.h with
  | .value v => v
  | .unwritten => Config.unwrittenLook look

/-- `Next(H, rst, cmd)`, line by line as R78 spells it out, with its three lines for an unwritten `H`. `exec`
is written from the per-command rules instead; that the two agree is a statement. -/
def next (h : Accumulator) (rst : Bool) (cmd : Cmd) : Accumulator :=
  if rst then .value seed
  else
    let base := baseOperand (cmdI cmd) h
    if cmdA cmd then base.absorb (cmdData cmd) else base

/-- The block at one rising edge: "replaces `H` by `Next(H, rst, cmd)`" (R78). -/
def Block.edge (b : Block) (rst : Bool) (cmd : Cmd) : Block := b.writeH (next b.h rst cmd)

end Sys2Proof.Machine
end

