-- ==== Sys2Proof/Machine/Absorb.lean ====
section
/-! DEFINITION. The commands that take in a byte: ABSORB and START (41_absorb_commands.md R54, R55). -/
namespace Sys2Proof.Machine

/-- ABSORB: `H <- Step(H, data)`, the old `H` on the right; an unwritten `H` stays unwritten (R54). -/
def execAbsorb (data : Byte) (s : State) : Host.Outcome State Fault Refusal :=
  .next (s.onBlock fun b => b.writeH ((operandH b).absorb data))

/-- START: `H <- Step(SEED, data)`; the old `H` is not read (R55). -/
def execStart (data : Byte) (s : State) : Host.Outcome State Fault Refusal :=
  .next (s.onBlock fun b => b.writeH (operandSeed.absorb data))

end Sys2Proof.Machine
end

