-- ==== Sys2Proof/Machine/Control.lean ====
section
/-! DEFINITION. The edges that take in no byte: RESET (70_reset_and_hazards.md R79), HOLD and INIT
(40_control_commands.md R47, R48). None reads a flag, raises an exception or advances a counter (R46). -/
namespace Sys2Proof.Machine

/-- RESET: `H <- SEED`, whatever `cmd` and `H` were (R79, R15). -/
def execReset (s : State) : Host.Outcome State Fault Refusal := .next (s.onBlock fun b => b.writeH operandSeed)

/-- HOLD: `H <- H`; an unwritten `H` stays unwritten (R47, R16). -/
def execHold (s : State) : Host.Outcome State Fault Refusal := .next (s.onBlock fun b => b.writeH (operandH b))

/-- INIT: `H <- SEED`; the old `H` is not read (R48). -/
def execInit (s : State) : Host.Outcome State Fault Refusal := .next (s.onBlock fun b => b.writeH operandSeed)

end Sys2Proof.Machine
end

