-- ==== Sys2Proof/Machine/Dispatch.lean ====
section
/-! DEFINITION. One arm per constructor of `Instr`, each one direct call of its meaning. -/
namespace Sys2Proof.Machine

def exec (i : Instr) (s : State) : Host.Outcome State Fault Refusal :=
  match i with
  | .reset => Sys2Proof.Machine.execReset s
  | .hold => Sys2Proof.Machine.execHold s
  | .absorb data => Sys2Proof.Machine.execAbsorb data s
  | .init => Sys2Proof.Machine.execInit s
  | .start data => Sys2Proof.Machine.execStart data s

end Sys2Proof.Machine
end

