-- ==== Sys2Proof/Machine/Fetch.lean ====
section
/-! DEFINITION. Sampling the ports at an edge, and placing edge words for the host (10_state.md R17, R23;
30_encoding.md R45). The block fetches nothing (20_memory.md R35). -/
namespace Sys2Proof.Machine

/-- The edge word at the next rising edge and the state with it sampled; `none` when the host presents no
further edge (log entries 1, 2). -/
def sampleEdge (s : State) : Option (EdgeWord × State) :=
  match s.pending with
  | [] => none
  | ew :: rest => some (ew, { s with pending := rest })

/-- The host is to present `es`, in order, at the next edges (R45). -/
def State.present (s : State) (es : List EdgeWord) : State := { s with pending := es ++ s.pending }

/-- The edge word of a number put in front; a number that is no edge word cannot be presented and leaves the
state as it is (log entry 7). -/
def placeNumber (s : State) (w : Nat) : State :=
  match edgeOfNumber w with
  | .ok ew => s.present [ew]
  | .error _ => s

end Sys2Proof.Machine
end

