-- ==== Sys2Proof/Machine/Step.lean ====
section
/-! DEFINITION. One step: one rising clock edge (70_reset_and_hazards.md R78). -/
namespace Sys2Proof.Machine

/-- At the edge the block samples `rst` and `cmd` and runs what they decode to (R78). With nothing presented
there is no edge: the clock is stopped and the block keeps `H` (60_exceptions.md R76; log entry 2). -/
def step (s : State) : Host.Outcome State Fault Refusal :=
  match sampleEdge s with
  | none => .next s
  | some (ew, sampled) => exec (decode ew) sampled

/-- The edge word `w` presented at the next edge (log entries 6, 7). -/
def State.withFetchWord (s : State) (nbits w : Nat) : State := placeNumber s (w % 2 ^ nbits)

end Sys2Proof.Machine
end

