-- ==== Sys2Proof/Machine/Message.lean ====
section
/-! DEFINITION. The whole-message function and the command sequences that carry it (42_message_hash.md R58 to
R63; 30_encoding.md R44). -/
namespace Sys2Proof.Machine

/-- `Absorb(h, y)`: the fold of `Step` over `y` from the left, starting at `h` (R60). -/
def absorbAll (h : Word) (y : List Byte) : Word := y.foldl hashStep h

/-- `Hash(data)` (R58); the source's `hash` and `djb_hash` in one. -/
def messageHash (data : List Byte) : Word := absorbAll seed data

/-- The same recurrence in unbounded natural numbers, from 5381 (R52; 95_test_vectors.md S4). -/
def hashUnbounded (data : List Byte) : Nat := data.foldl hashStepUnbounded 5381

/-- One ABSORB per byte, in order (R63 phase 2; R44 `ABSORBS`). -/
def absorbCommands (data : List Byte) : List Instr := data.map Instr.absorb

/-- INIT, then one ABSORB per byte (R63 (a); R44 `HASH`). -/
def hashCommands (data : List Byte) : List Instr := .init :: absorbCommands data

/-- START with the first byte, then one ABSORB for each further one; INIT for the empty message (R63 (c);
R44 `HASHF`). -/
def hashfCommands (data : List Byte) : List Instr :=
  match data with
  | [] => [.init]
  | b :: rest => .start b :: absorbCommands rest

/-- What an edge makes of the message in progress: the bytes absorbed since the last RESET, INIT or START, or
`none` before the first of them (R14, R16, R24). -/
def messageAfter (m : Option (List Byte)) (i : Instr) : Option (List Byte) :=
  match i with
  | .reset => some []
  | .hold => m
  | .absorb b => m.map (· ++ [b])
  | .init => some []
  | .start b => some [b]

/-- The accumulator that stands for a message in progress: `Hash(p)` after the bytes `p`, unwritten before
any start (R14, R16). -/
def accumulatorOf (m : Option (List Byte)) : Accumulator :=
  match m with
  | none => .unwritten
  | some p => .value (messageHash p)

/-- The commands that are not HOLD, in order. -/
def withoutHolds (is : List Instr) : List Instr := is.filter (fun i => i != .hold)

/-- The ways R63 lets a host present a message, HOLD edges left out: (a) INIT, (b) RESET, (c) START with the
first byte where there is one. -/
def messageForms (data : List Byte) : List (List Instr) :=
  [.init :: absorbCommands data, .reset :: absorbCommands data] ++
    (match data with
     | [] => []
     | b :: rest => [.start b :: absorbCommands rest])

/-- The edges `es` present the message `data` as R63 allows: one of its forms, with any number of HOLD edges
anywhere, whatever their ignored bits (R41, R47). -/
def presentsMessage (es : List EdgeWord) (data : List Byte) : Bool :=
  (messageForms data).contains (withoutHolds (es.map decode))

end Sys2Proof.Machine
end

