-- ==== Sys2Proof/Machine/Assembler.lean ====
section
/-! DEFINITION. From lines of a listing to edge words (30_encoding.md R43, R44, R45). -/
namespace Sys2Proof.Machine

/-- Why a line is refused by the assembler; the block knows nothing of it. Safe: no edge word comes of it. -/
inductive AsmError where
  /-- The line begins with no mnemonic of R43 or R44. -/
  | unknownMnemonic
  /-- The operand is none of R43's and R44's forms. -/
  | badOperand
  /-- "An operand outside 0 to 255 is an assembler error, never truncated" (R43). -/
  | operandOutOfRange
  /-- Something other than a comment follows the line's last part. -/
  | trailingText
  deriving DecidableEq, Repr

/-- The byte an operand already checked to be at most 255 stands for. -/
def byteOfImm (n : Nat) : Byte := BitVec.ofNat 8 n

/-- The instructions of a line whose operands are in range: itself, or its full expansion (R44). -/
def expansion : SourceLine → List Instr
  | .reset => [.reset]
  | .hold => [.hold]
  | .init => [.init]
  | .absorb n => [.absorb (byteOfImm n)]
  | .start n => [.start (byteOfImm n)]
  | .nop => [.hold]
  | .absorbs ns => absorbCommands (ns.map byteOfImm)
  | .hash ns => hashCommands (ns.map byteOfImm)
  | .hashf ns => hashfCommands (ns.map byteOfImm)

/-- The edge words of one line (R43, R44). -/
def assembleSource (l : SourceLine) : Except AsmError (List EdgeWord) :=
  if l.wellFormed then .ok ((expansion l).map encode) else .error .operandOutOfRange

end Sys2Proof.Machine
end

