-- ==== Sys2Proof/Machine/AssemblerText.lean ====
section
/-! DEFINITION. The text of a listing, read and written (30_encoding.md R38, R41, R43, R44). The blanks, the
digits, the places of quotes and the end of a line, which the spec does not fix, are log entries 13 and 14. -/
namespace Sys2Proof.Machine

/-- The text after its leading blanks. -/
def skipBlanks : List Char → List Char
  | [] => []
  | c :: cs => if c == ' ' || c == '\t' then skipBlanks cs else c :: cs

/-- "Mnemonics are upper case" (R43). -/
def isUpperCase (c : Char) : Bool := decide (0x41 ≤ c.toNat) && decide (c.toNat ≤ 0x5A)

/-- The leading upper-case letters and what follows them. -/
def takeLetters : List Char → List Char × List Char
  | [] => ([], [])
  | c :: cs => if isUpperCase c then (c :: (takeLetters cs).1, (takeLetters cs).2) else ([], c :: cs)

/-- The value of a decimal digit. -/
def decimalDigit (c : Char) : Option Nat :=
  if 0x30 ≤ c.toNat ∧ c.toNat ≤ 0x39 then some (c.toNat - 0x30) else none

/-- The value of a hexadecimal digit. -/
def hexDigit (c : Char) : Option Nat :=
  if 0x41 ≤ c.toNat ∧ c.toNat ≤ 0x46 then some (c.toNat - 0x41 + 10)
  else if 0x61 ≤ c.toNat ∧ c.toNat ≤ 0x66 then some (c.toNat - 0x61 + 10)
  else decimalDigit c

/-- The number whose digits so far are worth `acc` and go on in the text. -/
def readDigits (base : Nat) (digit : Char → Option Nat) : Nat → List Char → Nat × List Char
  | acc, [] => (acc, [])
  | acc, c :: cs =>
    match digit c with
    | some d => readDigits base digit (acc * base + d) cs
    | none => (acc, c :: cs)

/-- `imm8`: a printable character in single quotes, a hexadecimal number after `0x`, or a decimal number
(R43). The range is checked later, on the number as written. -/
def readImm : List Char → Option (Nat × List Char)
  | '\'' :: c :: '\'' :: rest => if isPrintable c then some (c.toNat, rest) else none
  | '0' :: 'x' :: c :: rest => (hexDigit c).map (fun d => readDigits 16 hexDigit d rest)
  | c :: rest => (decimalDigit c).map (fun d => readDigits 10 decimalDigit d rest)
  | [] => none

/-- `imm8` values separated by commas (R44); the first argument bounds their number. -/
def readImms : Nat → List Char → Option (List Nat × List Char)
  | 0, _ => none
  | fuel + 1, cs =>
    match readImm (skipBlanks cs) with
    | none => none
    | some (n, rest) =>
      match skipBlanks rest with
      | ',' :: more => (readImms fuel more).map (fun r => (n :: r.1, r.2))
      | other => some ([n], other)

/-- The rest of a double-quoted string of printable ASCII characters (R44). -/
def readString : List Char → Option (List Nat × List Char)
  | [] => none
  | c :: cs =>
    if c == '"' then some ([], cs)
    else if isPrintable c then (readString cs).map (fun r => (c.toNat :: r.1, r.2))
    else none

/-- `<bytes>`: a double-quoted string, the word `EMPTY`, or `imm8` values (R44). -/
def readBytes (cs : List Char) : Option (List Nat × List Char) :=
  match skipBlanks cs with
  | '"' :: rest => readString rest
  | 'E' :: 'M' :: 'P' :: 'T' :: 'Y' :: rest => some ([], rest)
  | other => readImms (other.length + 1) other

/-- Nothing but blanks and a comment is left; "A `;` starts a comment" (R43). -/
def lineEnds (cs : List Char) : Bool :=
  match skipBlanks cs with
  | [] => true
  | c :: _ => c == ';'

/-- The line, if its text ends here. -/
def finishLine (l : SourceLine) (rest : List Char) : Except AsmError (Option SourceLine) :=
  if lineEnds rest then .ok (some l) else .error .trailingText

/-- A line with an operand just read. -/
def finishOperand {α : Type} (make : α → SourceLine) (read : Option (α × List Char)) :
    Except AsmError (Option SourceLine) :=
  match read with
  | some (x, rest) => finishLine (make x) rest
  | none => .error .badOperand

/-- The line a mnemonic begins, its operand read from `rest` (R43, R44). -/
def parseAfter (word rest : List Char) : Except AsmError (Option SourceLine) :=
  if word == "RESET".toList then finishLine .reset rest
  else if word == "HOLD".toList then finishLine .hold rest
  else if word == "INIT".toList then finishLine .init rest
  else if word == "ABSORB".toList then finishOperand .absorb (readImm (skipBlanks rest))
  else if word == "START".toList then finishOperand .start (readImm (skipBlanks rest))
  else if word == "NOP".toList then finishLine .nop rest
  else if word == "ABSORBS".toList then finishOperand .absorbs (readBytes rest)
  else if word == "HASH".toList then finishOperand .hash (readBytes rest)
  else if word == "HASHF".toList then finishOperand .hashf (readBytes rest)
  else .error .unknownMnemonic

/-- One line of text; `none` for a line that is blank or only a comment. -/
def parseLine (cs : List Char) : Except AsmError (Option SourceLine) :=
  if lineEnds cs then .ok none
  else parseAfter (takeLetters (skipBlanks cs)).1 (takeLetters (skipBlanks cs)).2

/-- The edge words of one line of text (R43, R44). -/
def assembleLine (cs : List Char) : Except AsmError (List EdgeWord) :=
  match parseLine cs with
  | .error e => .error e
  | .ok none => .ok []
  | .ok (some l) => assembleSource l

/-- A listing's lines, in order (R45); the first line in error is the listing's error. -/
def assembleLines : List (List Char) → Except AsmError (List EdgeWord)
  | [] => .ok []
  | l :: ls =>
    match assembleLine l, assembleLines ls with
    | .ok es, .ok more => .ok (es ++ more)
    | .ok _, .error e => .error e
    | .error e, _ => .error e

/-- The lines of a text. DESIGN CHOICE (log entry 13): R43 says that one line is one clock edge and not what ends a line;
here a line feed does and nothing else, wherever it stands. A carriage return is a character of the line and no
blank. -/
def linesOf : List Char → List (List Char)
  | [] => [[]]
  | c :: cs =>
    if c == '\n' then [] :: linesOf cs
    else match linesOf cs with
      | [] => [[c]]
      | l :: ls => (c :: l) :: ls

/-- A whole listing: a program (R45). -/
def assemble (text : List Char) : Except AsmError (List EdgeWord) := assembleLines (linesOf text)

/-- The hexadecimal digit of a number below 16, upper case as the spec writes them (00_scope.md R7). -/
def hexChar (n : Nat) : Char :=
  if n < 10 then Char.ofNat (0x30 + n) else Char.ofNat (0x41 + (n - 10))

/-- A byte as `0x` and two digits (00_scope.md R7). -/
def byteText (b : Byte) : List Char := ['0', 'x', hexChar (b.toNat / 16), hexChar (b.toNat % 16)]

/-- A number below 0x800 as `0x` and three digits, as an edge word is written (R38). -/
def edgeText (ew : EdgeWord) : List Char :=
  ['0', 'x', hexChar (ew.toNat / 256), hexChar (ew.toNat / 16 % 16), hexChar (ew.toNat % 16)]

/-- The comment that names ignored bits, where any is 1: "`INIT ; data=0xA5 ignored`" (R41). -/
def ignoredComment (ignored : EdgeWord) (note : List Char) : List Char :=
  if ignored == 0 then [] else note ++ " ignored".toList

/-- One edge word as a line of the listing, ignored bits in a comment (R41). -/
def disassemble (ew : EdgeWord) : List Char :=
  match decode ew with
  | .reset =>
    "RESET".toList ++ ignoredComment (ew &&& ignoredBits .reset) (" ; cmd=".toList ++ edgeText (ew &&& ignoredBits .reset))
  | .hold =>
    "HOLD".toList ++ ignoredComment (ew &&& ignoredBits .hold) (" ; data=".toList ++ byteText (cmdData (edgeCmd ew)))
  | .absorb b => "ABSORB ".toList ++ byteText b
  | .init =>
    "INIT".toList ++ ignoredComment (ew &&& ignoredBits .init) (" ; data=".toList ++ byteText (cmdData (edgeCmd ew)))
  | .start b => "START ".toList ++ byteText b

end Sys2Proof.Machine
end

