-- ==== Sys2Proof/Machine/Flags.lean ====
section
/-! DEFINITION. The block has no flags (10_state.md R18); no definition here is state and no instruction
reads one. What is lost silently is named, so that statements can speak of it (41_absorb_commands.md R52, R54). -/
namespace Sys2Proof.Machine

/-- The five bits `h[31:27]` that leave the top of the shift (R51, R52). -/
def bitsShiftedOut (h : Word) : BitVec 5 := h.extractLsb' 27 5

/-- The carry out of bit 31 of `(h << 5) + h` (R51, R52). -/
def carryDropped (h : Word) : Bool := decide (2 ^ 32 ≤ (shifted h).toNat + h.toNat)

/-- "when `33 * H >= 2^32` in unbounded arithmetic the high bits are lost and nothing is signalled" (R54). -/
def wraps (h : Word) : Bool := decide (2 ^ 32 ≤ 33 * h.toNat)

end Sys2Proof.Machine
end

