-- ==== Sys2Proof/Machine/Run.lean ====
section
/-! DEFINITION. A run of the block over the edge words a host presents (70_reset_and_hazards.md R78, R87;
30_encoding.md R45). -/
namespace Sys2Proof.Machine

/-- The state after the host has presented `es`, one step per edge word, before whatever else is pending. -/
def runEdges (es : List EdgeWord) (s : State) : Host.Outcome State Fault Refusal :=
  Host.Core.run Sys2Proof.core es.length (s.present es)

/-- The edge words, in canonical encoding, of a list of instructions. -/
def encodeAll (is : List Instr) : List EdgeWord := is.map encode

end Sys2Proof.Machine
end

