-- ==== Sys2Proof/Machine/HostCall.lean ====
section
/-! DEFINITION. The host procedure `djb_hash` on the block, with its one error (42_message_hash.md R63 to R66;
60_exceptions.md R69, R71, R72). -/
namespace Sys2Proof.Machine

/-- What the host may be given as `data`: a sequence of integers, or a value that is not one, "a structured
object" (R64, R69; log entry 15). -/
inductive HostValue where
  | integers (xs : List Int)
  | structuredObject
  deriving DecidableEq, Repr

/-- The one error kind; it carries nothing (R69; U7). Raised by `asBytes`. Safe: no command is issued. -/
inductive HostError where
  | invalidArgument
  deriving DecidableEq, Repr

/-- An integer as a byte, if it is one; no truncation, no re-encoding (R64). -/
def byteOfInt (x : Int) : Option Byte :=
  if 0 ≤ x ∧ x ≤ 255 then some (BitVec.ofNat 8 x.toNat) else none

/-- The integers as bytes, if each is one. -/
def bytesOfInts : List Int → Option (List Byte)
  | [] => some []
  | x :: xs =>
    match byteOfInt x, bytesOfInts xs with
    | some b, some bs => some (b :: bs)
    | _, _ => none

/-- `AsBytes(value)`: the check of the whole value, before any command (R64, R71). -/
def asBytes (value : HostValue) : Except HostError (List Byte) :=
  match value with
  | .structuredObject => .error .invalidArgument
  | .integers xs =>
    match bytesOfInts xs with
    | some bs => .ok bs
    | none => .error .invalidArgument

/-- Phase 1's choice: (a) INIT, (b) RESET, (c) START with the first byte (R63). -/
inductive StartChoice where
  | byInit
  | byReset
  | byStart
  deriving DecidableEq, Repr

/-- What R63 leaves to the host (U14): the start, how many HOLD edges stand before each absorbed byte (none
where the list is too short) and after the last. -/
structure HostPlan where
  start : StartChoice
  holdsBefore : List Nat
  holdsAfter : Nat
  deriving DecidableEq, Repr

/-- `n` HOLD commands. -/
def holds (n : Nat) : List Instr := List.replicate n .hold

/-- Phase 1's command and the bytes left for phase 2. (c) is for `n >= 1` only; the empty message begins with
INIT then, as HASHF does (R63, R55, R44; log entry 9). -/
def startPhase (c : StartChoice) (data : List Byte) : Instr × List Byte :=
  match c, data with
  | .byInit, d => (.init, d)
  | .byReset, d => (.reset, d)
  | .byStart, [] => (.init, [])
  | .byStart, b :: d => (.start b, d)

/-- Phase 2: one ABSORB per byte in increasing index order, HOLD edges before each (R63, R26). -/
def absorbPhase : List Nat → List Byte → List Instr
  | _, [] => []
  | gaps, b :: d => holds (gaps.headD 0) ++ .absorb b :: absorbPhase gaps.tail d

/-- Every command of one call, in order (R63). -/
def hostCommands (plan : HostPlan) (data : List Byte) : List Instr :=
  (startPhase plan.start data).1 :: absorbPhase plan.holdsBefore (startPhase plan.start data).2
    ++ holds plan.holdsAfter

/-- What a call of `djb_hash` ends in: the result as a non-negative number (R65) and the block after it, or
the error and the block, untouched (R64, R72). -/
inductive CallResult where
  | returned (result : Nat) (block : State)
  | raised (e : HostError) (block : State)
  deriving DecidableEq, Repr

/-- `djb_hash(value)` on a block: check, then phases 1 and 2, then phase 3, the read of `hash_out` at the
host's look number `look` (R63). -/
def djbHash (plan : HostPlan) (look : Nat) (value : HostValue) (s : State) :
    Host.Outcome CallResult Fault Refusal :=
  match asBytes value with
  | .error e => .next (.raised e s)
  | .ok data =>
    match runEdges (encodeAll (hostCommands plan data)) s with
    | .next t => .next (.returned (hashOut look t.toBlock).toNat t)
    | .fault f => .fault f
    | .refused r => .refused r

/-- A message this host can hold at all: "N bounded only by addressable memory/the host's maximum buffer size"
(R6, R26). The block has no bound (R66), and no definition of the call reads this one (log entry 10). -/
def hostHolds (host : Config.HostParams) (data : List Byte) : Bool :=
  match host.maxLen with
  | none => true
  | some n => decide (data.length ≤ n)

end Sys2Proof.Machine
end

