-- ==== Sys2Proof/Machine/Platform.lean ====
section
/-! DEFINITION. Several independent instances (60_exceptions.md R77; 00_scope.md R6, `N_INST`). -/
namespace Sys2Proof.Machine

/-- `N_INST` copies of the one-register machine; nothing is shared, none has an identifier of its own, and
only its place tells it from another (R77; U15). -/
structure Platform where
  blocks : List State
  deriving DecidableEq, Repr

/-- The platform has the `N_INST` its parameter says, and that is at least 1 (R6). -/
def Platform.fits (params : Config.PlatformParams) (p : Platform) : Bool :=
  params.legal && p.blocks.length == params.nInst

/-- The block at place `k` takes its next edge; the others see nothing of it (R77). A place that does not
exist takes none (log entry 11). -/
def Platform.edgeAt (k : Nat) (p : Platform) : Host.Outcome Platform Fault Refusal :=
  match p.blocks[k]? with
  | none => .next p
  | some s =>
    match step s with
    | .next t => .next { blocks := p.blocks.set k t }
    | .fault f => .fault f
    | .refused r => .refused r

/-- Edges in any interleaving: the places whose block takes an edge, in order. -/
def Platform.schedule : List Nat → Platform → Host.Outcome Platform Fault Refusal
  | [], p => .next p
  | k :: ks, p =>
    match p.edgeAt k with
    | .next q => Platform.schedule ks q
    | .fault f => .fault f
    | .refused r => .refused r

end Sys2Proof.Machine
end

