-- ==== Sys2Proof/Machine/Ports.lean ====
section
/-! DEFINITION. The block seen at its wires: a waveform of its inputs, and which moments of it are steps
(30_encoding.md R36; 10_state.md R23; 70_reset_and_hazards.md R78, R79). -/
namespace Sys2Proof.Machine

/-- The three inputs at one moment (R36). -/
structure Pins where
  clk : Bool
  rst : Bool
  cmd : Cmd
  deriving DecidableEq, Repr

/-- One moment of the waveform: the block takes its step at a rising edge of `clk` and does nothing at any other time
(R78, R23). `clkBefore`, the level `clk` had a moment ago, belongs to the waveform and is no state of the block (R10;
log entry 12). -/
def blockMoment (clkBefore : Bool) (p : Pins) (b : Block) : Block :=
  if !clkBefore && p.clk then b.edge p.rst p.cmd else b

/-- The block after a whole waveform. -/
def blockWave (clkBefore : Bool) (ps : List Pins) (b : Block) : Block :=
  match ps with
  | [] => b
  | p :: rest => blockWave p.clk rest (blockMoment clkBefore p b)

/-- The edge words a waveform presents: the inputs sampled at its rising edges, in order (R38, R78). -/
def risingEdges (clkBefore : Bool) : List Pins → List EdgeWord
  | [] => []
  | p :: ps =>
    if !clkBefore && p.clk then edgeWord p.rst p.cmd :: risingEdges p.clk ps else risingEdges p.clk ps

end Sys2Proof.Machine
end

