-- ==== Sys2Proof/Safety.lean ====
section
/-! DEFINITION. What counts as a safe run, in the terms the statements use. -/
namespace Sys2Proof.Safety
open Sys2Proof.Machine

/-- "H was written": the premise of every claim about a result (93_implementation_defined.md U1; D17). -/
def Written (b : Block) : Prop := ∃ v, b.h = .value v

/-- The block "never stops accepting commands and never needs to be recovered" (60_exceptions.md R68): every
number of steps from here gives a next state. -/
def NeverStops (s : State) : Prop := ∀ n, ∃ t, Host.Core.run Sys2Proof.core n s = .next t

/-- The host's duty of 70_reset_and_hazards.md R81 and R82, on the instructions of a run: the first that is
not HOLD is RESET, INIT or START. -/
def startsMessage : List Instr → Bool
  | [] => false
  | .hold :: is => startsMessage is
  | .reset :: _ => true
  | .init :: _ => true
  | .start _ :: _ => true
  | .absorb _ :: _ => false

end Sys2Proof.Safety
end

