-- ==== Sys2Proof/Certificates/Slice0/Obligations.lean ====
section
/-! DEFINITION. The statements about the model. Each docstring names the rule of spec/ it formalises; "derived"
ones rest on the section named. None rests on a value of the free value `Config.unwrittenLook`. -/

open Sys2Proof Sys2Proof.Machine Sys2Proof.Safety

/-! ### The five edges -/

/-- R79: a reset edge loads 0x00001505 whatever `cmd` and `H` are; one edge is enough and more repeat the write;
with `rst` = 0 nothing is reset; a level of `rst` that no rising edge samples has no effect; afterwards the block
is as INIT leaves it, and `hash_out` = 5381 = `Hash([])`. -/
def Obligations.ResetEdgeLoadsSeedAndIgnoresCmd : Prop :=
  (∀ s : State, exec .reset s = .next { s with h := .value 0x00001505#32 }) ∧
  (∀ cmd : Cmd, decode (edgeWord true cmd) = .reset ∧ decode (edgeWord false cmd) ≠ .reset) ∧
  (∀ (s : State) (cmds : List Cmd), cmds ≠ [] →
    runEdges (cmds.map (edgeWord true)) s = .next { s with h := .value 0x00001505#32 }) ∧
  (∀ (clkBefore : Bool) (b : Block) (p : Pins), (p.clk = false ∨ clkBefore = true) → blockMoment clkBefore p b = b) ∧
  (∀ s : State, exec .reset s = exec .init s) ∧
  (∀ (look : Nat) (s t : State), exec .reset s = .next t → hashOut look t.toBlock = 5381#32 ∧ hashOut look t.toBlock = messageHash [])

/-- R15: after an edge with `rst` = 1, `H` = 0x00001505, whatever `cmd` and `H` were; INIT loads the same. -/
def Obligations.StepAtResetEdgeLeavesSeedInH : Prop :=
  (∀ (s : State) (cmd : Cmd) (rest : List EdgeWord), s.pending = edgeWord true cmd :: rest →
    step s = .next ⟨⟨.value 0x00001505#32⟩, rest⟩) ∧
  (∀ s : State, exec .init s = .next { s with h := .value 0x00001505#32 })

/-- R47: HOLD keeps `H`, written or unwritten, and changes nothing else; its `data` is ignored and its canonical
word is 0x000; and HOLD edges anywhere between other edges change no later value of `H`. -/
def Obligations.HoldKeepsStateAndMayStandAnywhere : Prop :=
  (∀ s : State, exec .hold s = .next s) ∧
  (∀ d : Byte, decode (edgeWord false (formatC 0b00#2 d)) = .hold) ∧ encode .hold = 0x000#11 ∧
  (∀ (es : List EdgeWord) (s : State), runEdges es s = runEdges (es.filter (fun ew => decode ew != .hold)) s)

/-- R48: INIT loads 0x00001505 into any `H`, unwritten too; the old `H` has no influence; its `data` is ignored and
its canonical word is 0x200; twice is once; it does to `H` what a reset edge does; `hash_out` is then 5381, the hash
of the empty message. -/
def Obligations.InitLoadsSeedWhateverHWas : Prop :=
  (∀ s : State, exec .init s = .next { s with h := .value 0x00001505#32 }) ∧
  (∀ (s : State) (a : Accumulator), exec .init { s with h := a } = exec .init s) ∧
  (∀ d : Byte, decode (edgeWord false (formatC 0b10#2 d)) = .init) ∧ encode .init = 0x200#11 ∧
  (∀ s t : State, exec .init s = .next t → exec .init t = .next t) ∧
  (∀ s : State, exec .init s = exec .reset s) ∧
  (∀ (look : Nat) (s t : State), exec .init s = .next t → hashOut look t.toBlock = 5381#32 ∧ hashOut look t.toBlock = messageHash [])

/-- R54, without the overflow bounds the rule marks as derived: ABSORB replaces a written `H` by
`((H << 5) + H) ^ zext_32(data)`, the old `H` on the right, and leaves an unwritten one unwritten; nothing else
changes; the word is 0x100 + data; the corner cases and the worked example; back-to-back ABSORBs each read what the
one before wrote. -/
def Obligations.AbsorbReplacesHByItsStep : Prop :=
  (∀ (b : Byte) (s : State) (v : Word), s.h = .value v →
    exec (.absorb b) s = .next { s with h := .value (((v <<< 5) + v) ^^^ b.setWidth 32) }) ∧
  (∀ (b : Byte) (s : State), s.h = .unwritten → exec (.absorb b) s = .next s) ∧
  (∀ b : Byte, decode (edgeWord false (formatC 0b01#2 b)) = .absorb b ∧ (encode (.absorb b)).toNat = 0x100 + b.toNat) ∧
  (∀ h : Word, (hashStep h 0x00#8).toNat = 33 * h.toNat % 2 ^ 32) ∧
  (∀ b : Byte, hashStep 0x00000000#32 b = b.setWidth 32) ∧
  hashStep 0xFFFFFFFF#32 0x00#8 = 0xFFFFFFDF#32 ∧
  (∀ b : Byte, hashStep 0x80000000#32 b = 0x80000000#32 ^^^ b.setWidth 32) ∧
  (∀ (s : State) (v : Word) (b c : Byte), s.h = .value v →
    runEdges [encode (.absorb b), encode (.absorb c)] s = .next { s with h := .value (hashStep (hashStep v b) c) }) ∧
  hashStep 0x00001505#32 0x61#8 = 0x0002B5C4#32

/-- R55, without the equality with INIT and ABSORB that the rule marks as derived: START leaves
`{0x0002B5, 0xA5 ^ data}` in `H` whatever `H` was, unwritten too, and changes nothing else; the word is 0x300 + data;
the rule's values; no START expresses the empty message. -/
def Obligations.StartLeavesStepOfSeedInH : Prop :=
  (∀ (b : Byte) (s : State),
    exec (.start b) s = .next { s with h := .value (((0x00001505#32 <<< 5) + 0x00001505#32) ^^^ b.setWidth 32) }) ∧
  (∀ (b : Byte) (s : State), exec (.start b) s = .next { s with h := .value (0x0002B5#24 ++ (0xA5#8 ^^^ b)) }) ∧
  (∀ b : Byte, decode (edgeWord false (formatC 0b11#2 b)) = .start b ∧ (encode (.start b)).toNat = 0x300 + b.toNat) ∧
  hashStep seed 0x00#8 = 0x0002B5A5#32 ∧ hashStep seed 0xFF#8 = 0x0002B55A#32 ∧
  hashStep seed 0xA5#8 = 0x0002B500#32 ∧ hashStep seed 0x61#8 = 177604#32 ∧ messageHash [0x61#8] = 177604#32 ∧
  (∀ b : Byte, hashStep seed b ≠ messageHash [])

/-- Derived from 41_absorb_commands.md section 4: START is INIT at one edge and ABSORB of the same byte at the next. -/
def Obligations.StartIsInitThenAbsorb : Prop :=
  ∀ (b : Byte) (s t : State), exec .init s = .next t → exec (.start b) s = exec (.absorb b) t

/-- Derived from 10_state.md sections 2 and 5 (the table of R12, "No command has a side effect on anything but `H`"):
the frame of all five edges. What is pending is untouched (the model's own field, log entry 1), and HOLD keeps `H`. -/
def Obligations.EdgesChangeNothingButH : Prop :=
  ∀ (i : Instr) (s t : State), exec i s = .next t → t = { s with h := t.h } ∧ (i = .hold → t.h = s.h)

/-- Derived from 40_control_commands.md section 3 and 10_state.md section 2: RESET, INIT and START do not read `H`;
two states that differ in `H` only go to the same state. -/
def Obligations.StartingEdgesDoNotReadH : Prop :=
  ∀ (i : Instr) (s : State) (a : Accumulator), (i = .reset ∨ i = .init ∨ ∃ b, i = .start b) →
    exec i { s with h := a } = exec i s

/-! ### The step, and that it never stops -/

/-- Derived from 70_reset_and_hazards.md section 1: a step runs, by `exec`, the instruction the next edge word decodes
to, with that word no longer pending. With nothing pending a step keeps the state: the model's choice, log entry 2. -/
def Obligations.StepRunsTheDecodedEdge : Prop :=
  (∀ (s : State) (ew : EdgeWord) (rest : List EdgeWord), s.pending = ew :: rest →
    step s = exec (decode ew) { s with pending := rest }) ∧
  (∀ s : State, s.pending = [] → step s = .next s)

/-- R68: the block raises nothing: every instruction at every state gives a next state, every step does, and every
number of steps does. -/
def Obligations.BlockNeverFaultsNorRefuses : Prop :=
  (∀ (i : Instr) (s : State), ∃ t, exec i s = .next t) ∧ (∀ s : State, ∃ t, step s = .next t) ∧
  (∀ s : State, NeverStops s)

/-- R78: at an edge the block replaces `H` by `Next(H, rst, cmd)`, spelled out here for a written and for an unwritten
`H`; the per-command meanings, reached through the decoder, do exactly that; `hash_out` shows the new `H`; and at its
wires the block does it at every rising edge of `clk`, on the `rst` and `cmd` sampled there, and nothing at any other
moment: whatever the waveform, it leaves the block as the steps over its rising edges leave it. -/
def Obligations.StepIsNextAtEveryRisingEdge : Prop :=
  (∀ (a : Accumulator) (rest : List EdgeWord) (rst : Bool) (cmd : Cmd),
    step ⟨⟨a⟩, edgeWord rst cmd :: rest⟩ = .next ⟨⟨next a rst cmd⟩, rest⟩) ∧
  (∀ (v : Word) (rst : Bool) (cmd : Cmd), next (.value v) rst cmd =
    .value (if rst then 0x00001505#32 else
      let base := if cmdI cmd then 0x00001505#32 else v
      if cmdA cmd then ((base <<< 5) + base) ^^^ (cmdData cmd).setWidth 32 else base)) ∧
  (∀ cmd : Cmd, cmdI cmd = false → next .unwritten false cmd = .unwritten) ∧
  (∀ (cmd : Cmd) (v : Word), cmdI cmd = true → next .unwritten false cmd = next (.value v) false cmd) ∧
  (∀ cmd : Cmd, next .unwritten true cmd = .value 0x00001505#32) ∧
  (∀ (look : Nat) (v : Word) (rest : List EdgeWord) (a : Accumulator) (rst : Bool) (cmd : Cmd),
    next a rst cmd = .value v → ∃ t, step ⟨⟨a⟩, edgeWord rst cmd :: rest⟩ = .next t ∧ hashOut look t.toBlock = v) ∧
  (∀ (ps : List Pins) (clkBefore : Bool) (b : Block) (rest : List EdgeWord),
    runEdges (risingEdges clkBefore ps) ⟨b, rest⟩ = .next ⟨blockWave clkBefore ps b, rest⟩)

/-- Derived from 10_state.md section 9 (R23): inputs between rising edges have no effect. Moments that do not rise
may be given any `rst` and `cmd`. -/
def Obligations.InputsBetweenEdgesHaveNoEffect : Prop :=
  ∀ (clkBefore : Bool) (b : Block) (p q : Pins), p.clk = q.clk → (p.clk = false ∨ clkBefore = true) →
    blockMoment clkBefore p b = blockMoment clkBefore q b

/-- Derived from 20_memory.md section 6 (R32): commands take effect one after the other, each complete before the
next; a run may be cut anywhere. -/
def Obligations.RunsComposeInEdgeOrder : Prop :=
  ∀ (es fs : List EdgeWord) (s t : State), runEdges es s = .next t → runEdges (es ++ fs) s = runEdges fs t

/-! ### Reset, power-on, the unwritten condition -/

/-- Derived from 70_reset_and_hazards.md section 2: the reset state holds 0x00001505 and the power-on state is
unwritten; that nothing is pending in either is the model's choice, log entry 1. -/
def Obligations.ResetStateHoldsSeed : Prop :=
  State.reset = ⟨⟨.value 0x00001505#32⟩, []⟩ ∧ State.powerOn = ⟨⟨.unwritten⟩, []⟩ ∧
    Written State.reset.toBlock ∧ ¬ Written State.powerOn.toBlock

/-- Derived from 10_state.md section 3 (R16, "end the unwritten condition for good"): that `H` is written is an
invariant of every step, from any state and not only from reset. -/
def Obligations.WrittenHStaysWritten : Prop :=
  ∀ s t : State, Written s.toBlock → step s = .next t → Written t.toBlock

/-- Derived from 10_state.md section 3 (R16): an unwritten `H` is written by exactly RESET, INIT and START; HOLD and
ABSORB leave it unwritten. -/
def Obligations.UnwrittenHIsWrittenExactlyByStartingEdges : Prop :=
  ∀ (i : Instr) (s t : State), s.h = .unwritten → exec i s = .next t →
    ((Written t.toBlock ↔ (i = .reset ∨ i = .init ∨ ∃ b, i = .start b)) ∧ (t.h = .unwritten ↔ (i = .hold ∨ ∃ b, i = .absorb b)))

/-- Derived from 70_reset_and_hazards.md section 3 (R81): a run whose first edge other than HOLD is RESET, INIT or
START ends with `H` written, from any state. -/
def Obligations.RunThatStartsAMessageEndsWritten : Prop :=
  ∀ (es : List EdgeWord) (s : State), startsMessage (es.map decode) = true → ∃ t, runEdges es s = .next t ∧ Written t.toBlock

/-- R13: `hash_out` shows `H`, bit for bit, at every look; after an edge that wrote `H` it shows the new value, and
after one that did not it shows the old one. -/
def Obligations.HashOutShowsHAtEveryLook : Prop :=
  (∀ (look : Nat) (s : State) (v : Word), s.h = .value v →
    ∀ i < 32, (hashOut look s.toBlock).getLsbD i = v.getLsbD i) ∧
  (∀ (look look' : Nat) (i : Instr) (s t : State) (v : Word), exec i s = .next t → t.h = .value v →
    hashOut look t.toBlock = v ∧ hashOut look' t.toBlock = v) ∧
  (∀ (look look' : Nat) (s t : State), Written s.toBlock → exec .hold s = .next t →
    hashOut look t.toBlock = hashOut look' s.toBlock)

/-! ### Encoding -/

/-- Derived from 30_encoding.md section 2 and 95_test_vectors.md section 2.3: words written out from the patterns. -/
def Obligations.WordsOfThePatternsDecode : Prop :=
  decode 0b1_00_00000000#11 = .reset ∧ decode 0b1_01_01100001#11 = .reset ∧ decode 0b0_00_10100101#11 = .hold ∧
  decode 0b0_01_01100001#11 = .absorb 0x61#8 ∧ decode 0b0_10_11111111#11 = .init ∧
  decode 0b0_11_01100011#11 = .start 0x63#8

/-- Derived from 30_encoding.md section 2 (R38, "0x000 to 0x7FF"): a number with a bit above bit 10 is no edge word, and
one without is placed whole as the next edge; rejecting, not truncating, is the model's choice, log entry 7. -/
def Obligations.NumbersAboveElevenBitsAreNoEdgeWords : Prop :=
  (∀ w : Nat, 2 ^ 11 ≤ w → decodeNumber w = .error .moreThanElevenBits) ∧
  (∀ (s : State) (w : Nat), w < 2 ^ 11 →
    decodeTableWord 16 w = some (decode (BitVec.ofNat 11 w)) ∧
    step (s.withFetchWord 16 w) = exec (decode (BitVec.ofNat 11 w)) s)

/-- Derived from 30_encoding.md section 2: decoding the encoding of any instruction gives it back, every byte at every
value. -/
def Obligations.DecodeEncodeIsIdentity : Prop :=
  ∀ i : Instr, decode (encode i) = i

/-- Derived from 30_encoding.md section 4 (R41): encoding what a word decodes to gives the word back but for the bits
its instruction ignores, which become 0. -/
def Obligations.EncodeDecodeClearsOnlyIgnoredBits : Prop :=
  ∀ ew : EdgeWord, encode (decode ew) = ew &&& ~~~ ignoredBits (decode ew)

/-- R38: the edge word is `{rst, cmd}`; the five rows of the table, by match and mask, are what the decoder reads;
exactly one row admits each of the 2048 words; the canonical words. -/
def Obligations.DecoderIsTheTableOfEdgeWords : Prop :=
  (∀ (rst : Bool) (cmd : Cmd), (edgeWord rst cmd).toNat = 1024 * rst.toNat + cmd.toNat) ∧
  (∀ ew : EdgeWord,
    (decode ew = .reset ↔ ew &&& 0x400#11 = 0x400#11) ∧ (decode ew = .hold ↔ ew &&& 0x700#11 = 0x000#11) ∧
    (decode ew = .absorb (ew.extractLsb' 0 8) ↔ ew &&& 0x700#11 = 0x100#11) ∧
    (decode ew = .init ↔ ew &&& 0x700#11 = 0x200#11) ∧
    (decode ew = .start (ew.extractLsb' 0 8) ↔ ew &&& 0x700#11 = 0x300#11)) ∧
  (∀ ew : EdgeWord, (opcodeTable.filter (fun r => r.admits ew)).map OpcodeRow.mnemonic = [mnemonic (decode ew)]) ∧
  encode .reset = 0x400#11 ∧ encode .hold = 0x000#11 ∧ encode .init = 0x200#11 ∧
  (∀ b : Byte, (encode (.absorb b)).toNat = 0x100 + b.toNat ∧ (encode (.start b)).toNat = 0x300 + b.toNat)

/-- R40: every command word is legal and decodes to exactly one of the four commands, by `cmd[9:8]` alone; there is no
illegal-command fault. -/
def Obligations.EveryCommandWordIsLegal : Prop :=
  (∀ cmd : Cmd, mnemonic (decode (edgeWord false cmd)) =
    (if cmd.extractLsb' 8 2 = 0b00#2 then "HOLD" else if cmd.extractLsb' 8 2 = 0b01#2 then "ABSORB"
     else if cmd.extractLsb' 8 2 = 0b10#2 then "INIT" else "START")) ∧
  (∀ (cmd : Cmd) (s : State), ∃ t, exec (decode (edgeWord false cmd)) s = .next t)

/-- R41: HOLD and INIT ignore all 256 values of `data`, RESET all of `cmd`; the canonical words are 0x000, 0x200 and
0x400; 0x2A5 is INIT and a disassembler prints it with the ignored data in a comment. -/
def Obligations.IgnoredBitsAreMaskedNotCompared : Prop :=
  (∀ d : Byte, decode (edgeWord false (formatC 0b00#2 d)) = .hold ∧ decode (edgeWord false (formatC 0b10#2 d)) = .init) ∧
  (∀ cmd : Cmd, decode (edgeWord true cmd) = .reset) ∧
  encode .hold = 0x000#11 ∧ encode .init = 0x200#11 ∧ encode .reset = 0x400#11 ∧
  disassemble 0x000#11 = "HOLD".toList ∧ disassemble 0x200#11 = "INIT".toList ∧
  decode 0x2A5#11 = .init ∧ disassemble 0x2A5#11 = "INIT ; data=0xA5 ignored".toList

/-- Derived from 30_encoding.md sections 4 and 6: what the disassembler prints assembles to the same word with its
ignored bits 0. The text of the comment of HOLD and RESET is the model's choice, log entry 14. -/
def Obligations.DisassembledTextAssemblesBack : Prop :=
  ∀ ew : EdgeWord, assembleLine (disassemble ew) = .ok [encode (decode ew)]

/-- Derived from 30_encoding.md section 6 (R43): a line with an operand outside 0 to 255 is an error, never truncated,
and every other line assembles. -/
def Obligations.OutOfRangeOperandsAreErrors : Prop :=
  (∀ l : SourceLine, l.wellFormed = false → assembleSource l = .error .operandOutOfRange) ∧
  (∀ n : Nat, 255 < n → assembleSource (.absorb n) = .error .operandOutOfRange ∧
    assembleSource (.start n) = .error .operandOutOfRange) ∧
  (∀ n : Nat, n ≤ 255 → ∃ a b : EdgeWord, assembleSource (.absorb n) = .ok [a] ∧ a.toNat = 0x100 + n ∧
    assembleSource (.start n) = .ok [b] ∧ b.toNat = 0x300 + n) ∧
  assembleSource .reset = .ok [0x400#11] ∧ assembleSource .hold = .ok [0x000#11] ∧ assembleSource .init = .ok [0x200#11]

/-- R44: NOP, ABSORBS, HASH and HASHF expand as the table says and use that many edges; after the last edge of HASH or
HASHF, `hash_out` is the hash of the bytes; the rule's examples, and its form of `<bytes>` as `imm8` values separated by
commas. -/
def Obligations.PseudoInstructionsExpandAndHash : Prop :=
  assembleSource .nop = .ok [0x000#11] ∧
  (∀ bs : List Byte, assembleSource (.absorbs (bs.map BitVec.toNat)) = .ok (bs.map (fun b => encode (.absorb b)))) ∧
  (∀ bs : List Byte, ∃ es fs : List EdgeWord,
    assembleSource (.hash (bs.map BitVec.toNat)) = .ok es ∧ assembleSource (.hashf (bs.map BitVec.toNat)) = .ok fs ∧
    es = 0x200#11 :: bs.map (fun b => encode (.absorb b)) ∧
    fs = (match bs with
      | [] => [0x200#11]
      | b :: rest => encode (.start b) :: rest.map (fun b => encode (.absorb b))) ∧
    es.length = bs.length + 1 ∧ fs.length = max bs.length 1 ∧
    ∀ (look : Nat) (s : State), ∃ t u, runEdges es s = .next t ∧ hashOut look t.toBlock = messageHash bs ∧
      runEdges fs s = .next u ∧ hashOut look u.toBlock = messageHash bs) ∧
  assembleLine "HASH \"cdb\"".toList = .ok [0x200#11, 0x163#11, 0x164#11, 0x162#11] ∧
  assembleLine "HASHF \"cdb\"".toList = .ok [0x363#11, 0x164#11, 0x162#11] ∧
  assembleLine "HASH 99,0x64,'b'".toList = .ok [0x200#11, 0x163#11, 0x164#11, 0x162#11] ∧
  assembleLine "HASH EMPTY".toList = .ok [0x200#11] ∧ assembleLine "HASHF EMPTY".toList = .ok [0x200#11]

/-! ### The arithmetic of the step -/

/-- R51: `Step` bit by bit: the shift drops the top five bits, the addition drops the carry out of bit 31, and the
byte is combined by exclusive-or into bits 7 to 0 only. -/
def Obligations.StepIsShiftAddXorBitByBit : Prop :=
  ∀ (h : Word) (b : Byte), ∃ s t : Word,
    (∀ i < 32, s.getLsbD i = (decide (5 ≤ i) && h.getLsbD (i - 5))) ∧ t.toNat = (s.toNat + h.toNat) % 2 ^ 32 ∧
    (hashStep h b).extractLsb' 8 24 = t.extractLsb' 8 24 ∧
    (hashStep h b).extractLsb' 0 8 = t.extractLsb' 0 8 ^^^ b

/-- Derived from 41_absorb_commands.md section 2 (items 1 and 2): `Step` is 33 times `h` modulo 2^32 with the byte in
the low eight bits only. -/
def Obligations.StepIsTimes33WithByteInLowBits : Prop :=
  (∀ (h : Word) (b : Byte), hashStep h b = 33#32 * h ^^^ b.setWidth 32) ∧
  (∀ (h : Word) (b c : Byte), hashStep h b ^^^ hashStep h c = (b ^^^ c).setWidth 32 ∧
    (hashStep h b).toNat / 256 = 33 * h.toNat % 2 ^ 32 / 256)

/-- Derived from 41_absorb_commands.md section 2 (items 3 and 4): for one accumulator different bytes give different
results, and for one byte `Step` is a bijection, undone by the inverse 0x3E0F83E1 of 33. -/
def Obligations.StepIsInjectiveInByteAndBijectiveInH : Prop :=
  (∀ h : Word, Function.Injective (hashStep h)) ∧ (∀ b : Byte, Function.Bijective (fun h => hashStep h b)) ∧
  (∀ (h r : Word) (b : Byte), hashStep h b = r ↔ h = 0x3E0F83E1#32 * (r ^^^ b.setWidth 32))

/-- Derived from 41_absorb_commands.md section 2 (item 6): with byte 0 the fixed points are exactly the multiples of
2^27. -/
def Obligations.FixedPointsOfZeroByteAreMultiples : Prop :=
  ∀ h : Word, hashStep h 0x00#8 = h ↔ h.toNat % 2 ^ 27 = 0

/-- Derived from 41_absorb_commands.md section 3 (overflow): from `SEED` the first three bytes never lose a bit and the
fourth always loses exactly bit 32, whatever the bytes; the bounds after three bytes are met. -/
def Obligations.FourthByteIsTheFirstToWrap : Prop :=
  (∀ a b c : Byte, wraps seed = false ∧ wraps (messageHash [a]) = false ∧ wraps (messageHash [a, b]) = false ∧
    wraps (messageHash [a, b, c]) = true ∧ 33 * (messageHash [a, b, c]).toNat < 2 ^ 33 ∧
    193197312 ≤ (messageHash [a, b, c]).toNat ∧ (messageHash [a, b, c]).toNat ≤ 193476095) ∧
  (∃ a b c : Byte, (messageHash [a, b, c]).toNat = 193197312) ∧ (∃ a b c : Byte, (messageHash [a, b, c]).toNat = 193476095)

/-! ### The whole message -/

/-- R58 and R59: `Hash` starts at 0x00001505, which is its value on the empty message, and each further byte `b` takes
`h` to `((h << 5) + h) ^ b`. -/
def Obligations.HashIsTheLeftFoldFromSeed : Prop :=
  messageHash [] = 0x00001505#32 ∧ (messageHash []).toNat = 5381 ∧
  (∀ (data : List Byte) (b : Byte),
    messageHash (data ++ [b]) = ((messageHash data <<< 5) + messageHash data) ^^^ b.setWidth 32) ∧
  (∀ data : List Byte, messageHash data = data.foldl (fun (h : Word) (b : Byte) => ((h <<< 5) + h) ^^^ b.setWidth 32) 0x00001505#32)

/-- Derived from 42_message_hash.md section 1 (R60): where a message is cut does not matter, in the function and on the
block, where the accumulator after the first part is all that is needed to go on. -/
def Obligations.HashIsIncremental : Prop :=
  (∀ x y : List Byte, messageHash (x ++ y) = absorbAll (messageHash x) y) ∧
  (∀ (x y : List Byte) (s : State), s.h = .value (messageHash x) →
    runEdges (encodeAll (absorbCommands y)) s = .next { s with h := .value (messageHash (x ++ y)) })

/-- Derived from 41_absorb_commands.md section 2 and 95_test_vectors.md section 1 (S4, wraparound correctness): the
result is the value of the recurrence in unbounded integers, reduced modulo 2^32 once at the end. -/
def Obligations.HashIsUnboundedHashReduced : Prop :=
  ∀ data : List Byte, (messageHash data).toNat = hashUnbounded data % 2 ^ 32

/-- Derived from 42_message_hash.md section 1 (R62): messages that differ in their last byte only have different
hashes, which differ in bits 7 to 0 only. -/
def Obligations.LastByteAlwaysShows : Prop :=
  ∀ (data : List Byte) (b c : Byte), b ≠ c →
    messageHash (data ++ [b]) ≠ messageHash (data ++ [c]) ∧
    (messageHash (data ++ [b])).toNat / 256 = (messageHash (data ++ [c])).toNat / 256

/-- Derived from 42_message_hash.md section 1 (R61, "Its range is all of 0 to 2^32 - 1"): every 32-bit value is the hash
of some message. -/
def Obligations.EveryWordIsTheHashOfAMessage : Prop :=
  ∀ w : Word, ∃ data : List Byte, messageHash data = w

/-- Derived from 10_state.md section 2 (R14, R16): at the end of any run `H` is the hash of the bytes absorbed since the
last RESET, INIT or START, and unwritten where there was none; whatever ran before is summed up in `m`. -/
def Obligations.HIsTheHashOfTheBytesSinceTheLastStart : Prop :=
  ∀ (es : List EdgeWord) (s : State) (m : Option (List Byte)), s.h = accumulatorOf m →
    runEdges es s = .next { s with h := accumulatorOf ((es.map decode).foldl messageAfter m) }

/-- Derived from 70_reset_and_hazards.md section 4 (R82): a second message absorbed without a start continues the
first. -/
def Obligations.UnstartedMessageContinuesTheOldOne : Prop :=
  ∀ (es : List EdgeWord) (x y : List Byte) (s : State), s.h = .value (messageHash x) →
    withoutHolds (es.map decode) = absorbCommands y →
    runEdges es s = .next { s with h := .value (messageHash (x ++ y)) }

/-! ### The host call -/

/-- R67: a block driven by R63's procedure, with any of the three starts and HOLD edges anywhere, shows at the end the
number that the fold of the formula computes in software, for every byte sequence, every block and every look; and so
does the host procedure, for every plan. -/
def Obligations.BlockAgreesWithSoftwareHash : Prop :=
  (∀ (data : List Byte) (es : List EdgeWord) (look : Nat) (s : State), presentsMessage es data = true →
    ∃ t, runEdges es s = .next t ∧ t.pending = s.pending ∧
      hashOut look t.toBlock = data.foldl (fun (h : Word) (b : Byte) => ((h <<< 5) + h) ^^^ b.setWidth 32) 0x00001505#32) ∧
  (∀ (data : List Byte) (plan : HostPlan) (look : Nat) (s : State), ∃ t,
    djbHash plan look (.integers (data.map (fun b => (b.toNat : Int)))) s = .next (.returned (messageHash data).toNat t))

/-- Derived from 42_message_hash.md section 2 (R63): what the host procedure presents, for every plan, is a
presentation of the message. -/
def Obligations.HostPresentsTheMessage : Prop :=
  ∀ (plan : HostPlan) (data : List Byte), presentsMessage (encodeAll (hostCommands plan data)) data = true

/-- Derived from 42_message_hash.md section 2 (R63, R65): the call leaves the block holding the hash and nothing else
changed, and its result is a number below 2^32. -/
def Obligations.HostCallLeavesTheHashInTheBlock : Prop :=
  ∀ (plan : HostPlan) (look : Nat) (data : List Byte) (s : State),
    djbHash plan look (.integers (data.map (fun b => (b.toNat : Int)))) s =
      .next (.returned (messageHash data).toNat { s with h := .value (messageHash data) }) ∧
    (messageHash data).toNat < 2 ^ 32

/-- R64: a sequence of integers each in 0 to 255 is returned unchanged; any other value raises `InvalidArgument`, and
the block is then as it was, no command having been issued. -/
def Obligations.NonBytesAreRefusedBeforeAnyCommand : Prop :=
  (∀ xs : List Int, (∀ x ∈ xs, 0 ≤ x ∧ x ≤ 255) →
    ∃ bs : List Byte, asBytes (.integers xs) = .ok bs ∧ bs.map (fun b => (b.toNat : Int)) = xs) ∧
  (∀ xs : List Int, (∃ x ∈ xs, ¬ (0 ≤ x ∧ x ≤ 255)) → asBytes (.integers xs) = .error .invalidArgument) ∧
  asBytes .structuredObject = .error .invalidArgument ∧
  (∀ (plan : HostPlan) (look : Nat) (value : HostValue) (s : State), asBytes value = .error .invalidArgument →
    djbHash plan look value s = .next (.raised .invalidArgument s))

/-- Derived from 42_message_hash.md section 1 and 70_reset_and_hazards.md section 4 (R61, R82): what a block held
before a message starts cannot be learned from it afterwards; two blocks that differ in `H` only, one of them perhaps
unwritten, end equal. -/
def Obligations.NothingOfEarlierMessagesSurvivesAStart : Prop :=
  ∀ (es : List EdgeWord) (s : State) (a : Accumulator), startsMessage (es.map decode) = true →
    runEdges es { s with h := a } = runEdges es s

/-- Derived from 70_reset_and_hazards.md section 5 (R86): a message of `n` bytes takes n + 1 edges begun with INIT or
RESET, or max(n, 1) begun with START, plus the HOLD edges. -/
def Obligations.EdgesOfAHostCallAreCounted : Prop :=
  ∀ (plan : HostPlan) (data : List Byte),
    (hostCommands plan data).length =
      (if plan.start = .byStart then max data.length 1 else data.length + 1) +
        ((hostCommands plan data).filter (fun i => i == .hold)).length

/-! ### The platform -/

/-- Derived from 60_exceptions.md section 8 (R77): instances share no state. Whatever the interleaving, each block ends
as it would have ended alone with as many steps, and the platform keeps its `N_INST`. -/
def Obligations.InstancesAreIsolated : Prop :=
  ∀ (ks : List Nat) (p : Platform), ∃ q, p.schedule ks = .next q ∧ q.blocks.length = p.blocks.length ∧
    ∀ (k : Nat) (s : State), p.blocks[k]? = some s →
      ∃ t, q.blocks[k]? = some t ∧ Host.Core.run Sys2Proof.core (ks.count k) s = .next t

/-- Derived from 60_exceptions.md section 8 (R77): an edge of one block leaves every other block as it was. -/
def Obligations.EdgeOfOneBlockLeavesTheOthers : Prop :=
  ∀ (k j : Nat) (p q : Platform), j ≠ k → p.edgeAt k = .next q → q.blocks[j]? = p.blocks[j]?

/-! ### What is no state of the block, and what the notation leaves open -/

/-- Derived from 10_state.md section 1 (R10: the block's state is `H` alone, and the host's sequence is not of it): an
instruction is one function on the block, whose only field is `H`, and what is pending is neither read nor changed. -/
def Obligations.PendingEdgesAreNoStateOfTheBlock : Prop :=
  (∀ i : Instr, ∃ f : Block → Block, ∀ (b : Block) (rest : List EdgeWord), exec i ⟨b, rest⟩ = .next ⟨f b, rest⟩) ∧
  (∀ b c : Block, b.h = c.h → b = c)

/-- Derived from 30_encoding.md section 6; that commas separate is R44's, and all that is said of blanks and of lines
without an instruction is the model's choice, log entry 13: a blank at the start of a
line does not matter; a line that is blank or only a comment is no edge (R43 says only that one line is one clock edge);
a blank where a list of `imm8` values begins does not matter, and as the list goes on after each comma in the same way,
none after a comma does; and one line with blanks after its commas. -/
def Obligations.BlanksAndCommentsAreNoEdges : Prop :=
  (∀ cs : List Char, assembleLine (' ' :: cs) = assembleLine cs ∧ assembleLine ('\t' :: cs) = assembleLine cs) ∧
  assembleLine [] = .ok [] ∧ (∀ cs : List Char, assembleLine (';' :: cs) = .ok []) ∧
  (∀ (fuel : Nat) (cs : List Char), readImms fuel (' ' :: cs) = readImms fuel cs ∧
    readImms fuel ('\t' :: cs) = readImms fuel cs) ∧
  (∀ (fuel n : Nat) (cs rest : List Char), readImm (skipBlanks cs) = some (n, ',' :: rest) →
    readImms (fuel + 1) cs = (readImms fuel rest).map (fun r => (n :: r.1, r.2))) ∧
  assembleLine "HASH 99, 0x64, 'b'".toList = .ok [0x200#11, 0x163#11, 0x164#11, 0x162#11]
end

