-- ==== Sys2Proof/Laws/Fields.lean ====
section
/-! SUPPORT. The bits of an edge word that was put together, and its fields read back. -/
namespace Sys2Proof

/-- Bit `i` of `{rst, cmd}`. -/
theorem getLsbD_edgeWord (rst : Bool) (cmd : Cmd) (i : Nat) :
    (edgeWord rst cmd).getLsbD i = if i < 10 then cmd.getLsbD i else (BitVec.ofBool rst).getLsbD (i - 10) :=
  (BitVec.getLsbD_append (x := BitVec.ofBool rst) (y := cmd)).trans (by by_cases h : i < 10 <;> simp [h])

/-- Bit `i` of `{op, data}`. -/
theorem getLsbD_formatC (op : BitVec 2) (data : Byte) (i : Nat) :
    (formatC op data).getLsbD i = if i < 8 then data.getLsbD i else op.getLsbD (i - 8) :=
  (BitVec.getLsbD_append (x := op) (y := data)).trans (by by_cases h : i < 8 <;> simp [h])

@[simp] theorem edgeRst_edgeWord (rst : Bool) (cmd : Cmd) : edgeRst (edgeWord rst cmd) = rst := by
  rw [edgeRst, getLsbD_edgeWord]; cases rst <;> rfl

@[simp] theorem edgeCmd_edgeWord (rst : Bool) (cmd : Cmd) : edgeCmd (edgeWord rst cmd) = cmd := by
  apply BitVec.eq_of_getLsbD_eq
  intro i hi
  rw [edgeCmd, BitVec.getLsbD_extractLsb', Nat.zero_add, getLsbD_edgeWord]; simp [hi]

@[simp] theorem cmdI_formatC (op : BitVec 2) (data : Byte) : cmdI (formatC op data) = op.getLsbD 1 := by
  rw [cmdI, getLsbD_formatC]; rfl

@[simp] theorem cmdA_formatC (op : BitVec 2) (data : Byte) : cmdA (formatC op data) = op.getLsbD 0 := by
  rw [cmdA, getLsbD_formatC]; rfl

@[simp] theorem cmdData_formatC (op : BitVec 2) (data : Byte) : cmdData (formatC op data) = data := by
  apply BitVec.eq_of_getLsbD_eq
  intro i hi
  rw [cmdData, BitVec.getLsbD_extractLsb', Nat.zero_add, getLsbD_formatC]; simp [hi]

/-- The mask 0x700 takes `rst` and `op` of a word, and nothing of its byte. -/
theorem pattern_of_word (rst : Bool) (op : BitVec 2) (b : Byte) :
    edgeWord rst (formatC op b) &&& 0x700#11 = edgeWord rst (formatC op 0#8) := by
  apply BitVec.eq_of_getLsbD_eq
  intro i hi
  have hm : (0x700#11).getLsbD i = decide (8 ≤ i) := by interval_cases i <;> rfl
  rw [BitVec.getLsbD_and, hm, getLsbD_edgeWord, getLsbD_edgeWord, getLsbD_formatC, getLsbD_formatC]
  by_cases h : i < 8
  · have h10 : i < 10 := by omega
    have h8 : ¬ 8 ≤ i := by omega
    simp [h, h10, h8]
  · have h8 : 8 ≤ i := by omega
    simp [h, h8]

/-- The mask 0x400 takes `rst` of a word, and nothing of its command. -/
theorem reset_bit_of_word (rst : Bool) (cmd : Cmd) : edgeWord rst cmd &&& 0x400#11 = edgeWord rst 0#10 := by
  apply BitVec.eq_of_getLsbD_eq
  intro i hi
  have hm : (0x400#11).getLsbD i = decide (10 ≤ i) := by interval_cases i <;> rfl
  rw [BitVec.getLsbD_and, hm, getLsbD_edgeWord, getLsbD_edgeWord]
  by_cases h : i < 10
  · have h10 : ¬ 10 ≤ i := by omega
    simp [h, h10]
  · have h10 : 10 ≤ i := by omega
    simp [h, h10]

/-- Every command word is `{op, data}`. -/
theorem exists_formatC (cmd : Cmd) : ∃ op data, cmd = formatC op data := by
  refine ⟨cmd.extractLsb' 8 2, cmdData cmd, BitVec.eq_of_getLsbD_eq ?_⟩
  intro i hi
  rw [getLsbD_formatC, cmdData, BitVec.getLsbD_extractLsb', BitVec.getLsbD_extractLsb']
  by_cases h : i < 8
  · simp [h]
  · have h2 : i - 8 < 2 := by omega
    have h3 : 8 + (i - 8) = i := by omega
    simp [h, h2, h3]

/-- Every edge word is `{rst, cmd}`. -/
theorem exists_edgeWord (ew : EdgeWord) : ∃ rst cmd, ew = edgeWord rst cmd := by
  refine ⟨edgeRst ew, edgeCmd ew, BitVec.eq_of_getLsbD_eq ?_⟩
  intro i hi
  rw [getLsbD_edgeWord, edgeCmd, edgeRst, BitVec.getLsbD_extractLsb']
  by_cases h : i < 10
  · simp [h]
  · have h10 : i = 10 := by omega
    subst h10; simp

end Sys2Proof
end

