-- ==== Sys2Proof/Laws/State.lean ====
section
/-! SUPPORT. One lemma per field per update of State, each true by rfl. -/
namespace Sys2Proof.Machine

@[simp] theorem Block.writeH_h (b : Block) (a : Accumulator) : (b.writeH a).h = a := rfl
@[simp] theorem Block.edge_h (b : Block) (rst : Bool) (cmd : Cmd) : (b.edge rst cmd).h = next b.h rst cmd := rfl
@[simp] theorem State.onBlock_toBlock (s : State) (f : Block → Block) : (s.onBlock f).toBlock = f s.toBlock := rfl
@[simp] theorem State.onBlock_pending (s : State) (f : Block → Block) : (s.onBlock f).pending = s.pending := rfl
@[simp] theorem State.present_toBlock (s : State) (es : List EdgeWord) : (s.present es).toBlock = s.toBlock := rfl
@[simp] theorem State.present_pending (s : State) (es : List EdgeWord) :
    (s.present es).pending = es ++ s.pending := rfl
@[simp] theorem State.reset_pending : State.reset.pending = [] := rfl
@[simp] theorem State.powerOn_h : State.powerOn.h = .unwritten := rfl
@[simp] theorem State.powerOn_pending : State.powerOn.pending = [] := rfl

theorem Block.writeH_self (b : Block) : b.writeH b.h = b := rfl
theorem Block.writeH_writeH (b : Block) (a c : Accumulator) : (b.writeH a).writeH c = b.writeH c := rfl
theorem State.onBlock_present (s : State) (f : Block → Block) (es : List EdgeWord) :
    (s.present es).onBlock f = (s.onBlock f).present es := rfl
theorem State.present_nil (s : State) : s.present [] = s := rfl
theorem State.present_cons (s : State) (e : EdgeWord) (es : List EdgeWord) :
    s.present (e :: es) = (s.present es).present [e] := rfl

end Sys2Proof.Machine
end

