-- ==== Sys2Proof/Laws/Ops.lean ====
section
/-! SUPPORT. What the shared operations do, said once. -/
namespace Sys2Proof.Machine

@[simp] theorem absorb_unwritten (b : Byte) : Accumulator.absorb .unwritten b = .unwritten := rfl
@[simp] theorem absorb_value (v : Word) (b : Byte) : Accumulator.absorb (.value v) b = .value (hashStep v b) := rfl

theorem baseOperand_true (h : Accumulator) : baseOperand true h = .value seed := rfl
theorem baseOperand_false (h : Accumulator) : baseOperand false h = h := rfl

theorem hashOut_of_value {b : Block} {v : Word} (h : b.h = .value v) (look : Nat) : hashOut look b = v := by
  rw [hashOut, h]

theorem sampleEdge_none {s : State} (h : s.pending = []) : sampleEdge s = none := by
  rw [sampleEdge, h]

theorem sampleEdge_some {s : State} {ew : EdgeWord} {rest : List EdgeWord} (h : s.pending = ew :: rest) :
    sampleEdge s = some (ew, { s with pending := rest }) := by
  rw [sampleEdge, h]

theorem placeNumber_edge {w : Nat} (h : isEdgeNumber w = true) (s : State) :
    placeNumber s w = s.present [BitVec.ofNat 11 w] := by
  simp [placeNumber, edgeOfNumber, h]

theorem placeNumber_other {w : Nat} (h : isEdgeNumber w = false) (s : State) : placeNumber s w = s := by
  simp [placeNumber, edgeOfNumber, h]

/-- Inversion: each instruction is one function on the block, the same whatever is pending, and nothing else. -/
theorem exec_is_onBlock (i : Instr) : ∃ f : Block → Block, ∀ s : State, exec i s = .next (s.onBlock f) := by
  cases i <;> exact ⟨_, fun _ => rfl⟩

@[simp] theorem absorbAll_nil (h : Word) : absorbAll h [] = h := rfl
@[simp] theorem absorbAll_cons (h : Word) (b : Byte) (y : List Byte) :
    absorbAll h (b :: y) = absorbAll (hashStep h b) y := rfl

end Sys2Proof.Machine
end

