-- ==== Sys2Proof/Laws/PerInstr.lean ====
section
/-! SUPPORT. The per-instruction family EncodesInItsRow: the canonical word of an instruction lies in the row
of R38's table that bears its mnemonic, and has 0 in every bit the instruction ignores (30_encoding.md R38,
R41). -/
namespace Sys2Proof.Laws.EncodesInItsRow

/-- What the family says of one instruction. -/
def Statement (i : Instr) : Prop :=
  (∃ r ∈ opcodeTable, r.mnemonic = mnemonic i ∧ r.admits (encode i) = true) ∧ encode i &&& ignoredBits i = 0#11

theorem reset : Statement .reset := ⟨⟨_, List.mem_cons_self, rfl, rfl⟩, rfl⟩
theorem hold : Statement .hold := ⟨⟨_, .tail _ (.head _), rfl, rfl⟩, rfl⟩
theorem init : Statement .init := ⟨⟨_, .tail _ (.tail _ (.tail _ (.head _))), rfl, rfl⟩, rfl⟩
theorem absorb (b : Byte) : Statement (.absorb b) :=
  ⟨⟨_, .tail _ (.tail _ (.head _)), rfl, beq_iff_eq.mpr (pattern_of_word _ _ b)⟩, BitVec.and_zero⟩
theorem start (b : Byte) : Statement (.start b) :=
  ⟨⟨_, .tail _ (.tail _ (.tail _ (.tail _ (.head _)))), rfl, beq_iff_eq.mpr (pattern_of_word _ _ b)⟩, BitVec.and_zero⟩

end Sys2Proof.Laws.EncodesInItsRow
end

