-- ==== Sys2Proof/Laws/Run.lean ====
section
/-! SUPPORT. Running the block, one edge at a time. -/
namespace Sys2Proof.Machine

theorem run_zero (s : State) : Host.Core.run Sys2Proof.core 0 s = .next s := rfl

theorem run_succ {s t : State} (n : Nat) (h : step s = .next t) :
    Host.Core.run Sys2Proof.core (n + 1) s = Host.Core.run Sys2Proof.core n t := by
  have hs : Host.Core.step Sys2Proof.core s = .next t := h
  simp only [Host.Core.run, hs]

theorem runEdges_nil (s : State) : runEdges [] s = .next s := rfl

/-- What is pending behind an edge does not matter to `exec`, which is a function on the block only. -/
theorem exec_present {i : Instr} {s t : State} (es : List EdgeWord) (h : exec i s = .next t) :
    exec i (s.present es) = .next (t.present es) := by
  obtain ⟨f, hf⟩ := exec_is_onBlock i
  rw [hf] at h ⊢
  cases h; rfl

/-- A run over `e :: es` runs what `e` decodes to and then runs `es`. -/
theorem runEdges_cons {e : EdgeWord} {s t : State} (es : List EdgeWord) (h : exec (decode e) s = .next t) :
    runEdges (e :: es) s = runEdges es t := by
  refine run_succ es.length ?_
  exact exec_present es h

end Sys2Proof.Machine
end

