-- ==== Sys2Proof/Tests/Slice0.lean ====
section
/-! SUPPORT. Tests, their expected values taken from 95_test_vectors.md (ids in the comments) or from the tables
of 30_encoding.md; the WellFormed smoke test; and, for every statement with hypotheses, a witness that meets
them together. -/
namespace Sys2Proof.Tests
open Sys2Proof.Machine Sys2Proof.Safety

/-- A state with `H` written and one edge word pending. -/
def at1 (h : Word) (ew : EdgeWord) : State := ⟨⟨.value h⟩, [ew]⟩

/-! ### WellFormed: what each check refuses, and takes -/

theorem test_wf_absorb : (SourceLine.absorb 256).wellFormed = false ∧ (SourceLine.absorb 255).wellFormed = true := by decide
theorem test_wf_start : (SourceLine.start 300).wellFormed = false ∧ (SourceLine.start 0).wellFormed = true := by decide
theorem test_wf_absorbs : (SourceLine.absorbs [0x63, 0x100]).wellFormed = false ∧ (SourceLine.absorbs []).wellFormed = true := by decide
theorem test_wf_hash : (SourceLine.hash [256]).wellFormed = false ∧ (SourceLine.hash [1]).wellFormed = true := by decide
theorem test_wf_hashf : (SourceLine.hashf [256]).wellFormed = false ∧ (SourceLine.hashf []).wellFormed = true := by decide
theorem test_wf_edge_number : isEdgeNumber 0x800 = false ∧ isEdgeNumber 0x7FF = true := by decide
theorem test_wf_printable : isPrintable '\n' = false ∧ isPrintable '~' = true := by decide

/-! ### Decoding, words written out from R38's patterns (95_test_vectors.md section 2.3) -/

theorem test_decode_reset : decode 0b10000000000#11 = .reset ∧ decode 0b11111111111#11 = .reset := by decide
theorem test_decode_hold : decode 0b00000000000#11 = .hold ∧ decode 0b00010100101#11 = .hold := by decide
theorem test_decode_absorb : decode 0b00101100001#11 = .absorb 0x61#8 ∧ decode 0b00111111111#11 = .absorb 0xFF#8 := by decide
theorem test_decode_init : decode 0b01000000000#11 = .init ∧ decode 0b01011111111#11 = .init := by decide
theorem test_decode_start : decode 0b01101100011#11 = .start 0x63#8 ∧ decode 0b01100000000#11 = .start 0#8 := by decide
theorem test_decode_refuses : decodeNumber 0x800 = .error .moreThanElevenBits ∧ decodeTableWord 16 0x800 = none := by decide
theorem test_decode_table_word : decodeTableWord 16 0x161 = some (.absorb 0x61#8) := by decide
/-- R38: the rows are disjoint; no word fits two masks. -/
theorem test_rows_disjoint :
    opcodeTable.Pairwise (fun r q => (r.matchBits &&& q.mask &&& r.mask) ≠ (q.matchBits &&& q.mask &&& r.mask)) := by decide

/-! ### One step, by vector -/

theorem test_K8_reset : step (at1 0xDEADBEEF#32 0x400#11) = .next ⟨⟨.value 0x00001505#32⟩, []⟩ := by rfl
theorem test_K9_reset_wins : step (at1 0xDEADBEEF#32 0x561#11) = .next ⟨⟨.value 0x00001505#32⟩, []⟩ := by rfl
theorem test_K2_hold : step (at1 0x0002B5C4#32 0x0FF#11) = .next ⟨⟨.value 0x0002B5C4#32⟩, []⟩ := by rfl
theorem test_K3_hold_unwritten : step ⟨⟨.unwritten⟩, [0x000#11]⟩ = .next ⟨⟨.unwritten⟩, []⟩ := by rfl
theorem test_T5_absorb_is_xor : step (at1 0x00000021#32 0x121#11) = .next ⟨⟨.value 0x00000460#32⟩, []⟩ := by rfl
theorem test_T22_absorb_wraps : step (at1 0xDEADBEEF#32 0x142#11) = .next ⟨⟨.value 0xB4659C8D#32⟩, []⟩ := by rfl
theorem test_K17_absorb_unwritten : step ⟨⟨.unwritten⟩, [0x161#11]⟩ = .next ⟨⟨.unwritten⟩, []⟩ := by rfl
theorem test_K5_init : step (at1 0x0B874B40#32 0x2A5#11) = .next ⟨⟨.value 0x00001505#32⟩, []⟩ := by rfl
theorem test_K12_start : step (at1 0xDEADBEEF#32 0x361#11) = .next ⟨⟨.value 0x0002B5C4#32⟩, []⟩ := by rfl
theorem test_K13_start_unwritten : step ⟨⟨.unwritten⟩, [0x361#11]⟩ = .next ⟨⟨.value 0x0002B5C4#32⟩, []⟩ := by rfl
theorem test_fetch_word : step (State.reset.withFetchWord 16 0x161) = .next ⟨⟨.value 0x0002B5C4#32⟩, []⟩ := by rfl

/-! ### The arithmetic -/

theorem test_T11_carry : hashStep 0x07FFFFFF#32 0x00#8 = 0x07FFFFDF#32 ∧ carryDropped 0x07FFFFFF#32 = true := by decide
theorem test_T13_no_wrap : wraps 0x07C1F07C#32 = false ∧ wraps 0x07C1F07D#32 = true := by decide
theorem test_T18_bits_out : hashStep 0xF8000000#32 0x00#8 = 0xF8000000#32 ∧ bitsShiftedOut 0xF8000000#32 = 31#5 := by decide
theorem test_V10_cdb : messageHash [0x63#8, 0x64#8, 0x62#8] = 193416000#32 := by decide
theorem test_V12_abcd : hashUnbounded [0x61#8, 0x62#8, 0x63#8, 0x64#8] = 6382519105 := by decide

/-! ### The host, the wires, the notation -/

/-- X1, by START with two HOLD edges. -/
theorem test_X1_host_call :
    djbHash ⟨.byStart, [0, 1], 1⟩ 0 (.integers [0x63, 0x64, 0x62]) .powerOn =
      .next (.returned 193416000 ⟨⟨.value 0x0B874B40#32⟩, []⟩) := by rfl
theorem test_X2_empty :
    djbHash ⟨.byStart, [], 0⟩ 0 (.integers []) .powerOn = .next (.returned 5381 ⟨⟨.value 0x00001505#32⟩, []⟩) := by rfl
theorem test_X3_out_of_range :
    djbHash ⟨.byInit, [], 0⟩ 0 (.integers [0x63, 0x100, 0x62]) .powerOn = .next (.raised .invalidArgument .powerOn) := by rfl
/-- The clock rises once; the levels before and after it are not sampled (R23). -/
theorem test_wave :
    blockWave false [⟨false, true, 0x000#10⟩, ⟨true, false, 0x361#10⟩, ⟨true, true, 0x000#10⟩] ⟨.unwritten⟩ =
      ⟨.value 0x0002B5C4#32⟩ := by decide
theorem test_assemble_line : assembleLine "  ABSORB 'a' ; first byte".toList = .ok [0x161#11] := by decide
theorem test_assemble_error : assembleLine "START 0x100".toList = .error .operandOutOfRange := by decide
theorem test_assemble_listing : assemble "RESET\nNOP\n".toList = .ok [0x400#11, 0x000#11] := by decide
theorem test_assemble_unknown : assembleLine "MOVE 1".toList = .error .unknownMnemonic := by decide
theorem test_platform_fits :
    (Platform.mk [.reset, .powerOn]).fits ⟨2⟩ = true ∧ (Platform.mk []).fits ⟨0⟩ = false := by decide
theorem test_host_holds : hostHolds ⟨none⟩ [0#8, 1#8] = true ∧ hostHolds ⟨some 1⟩ [0#8, 1#8] = false := by decide

/-! ### Witnesses: concrete values that meet each statement's hypotheses together -/

theorem witness_ResetEdgeLoadsSeedAndIgnoresCmd :
    [0x161#10] ≠ ([] : List Cmd) ∧ ((Pins.mk true true 0x000#10).clk = false ∨ true = true) ∧
      exec .reset .powerOn = .next .reset := by
  exact ⟨by decide, .inr rfl, rfl⟩
theorem witness_StepAtResetEdgeLeavesSeedInH : (⟨⟨.unwritten⟩, [0x561#11]⟩ : State).pending = edgeWord true 0x161#10 :: [] := by decide
theorem witness_InitLoadsSeedWhateverHWas : exec .init .powerOn = .next .reset := by rfl
theorem witness_AbsorbReplacesHByItsStep : State.reset.h = .value 0x00001505#32 ∧ State.powerOn.h = .unwritten := by decide
theorem witness_StartIsInitThenAbsorb : exec .init (at1 7#32 0#11) = .next (at1 0x00001505#32 0#11) := by rfl
theorem witness_EdgesChangeNothingButH :
    exec (.absorb 0x61#8) .reset = .next ⟨⟨.value 0x0002B5C4#32⟩, []⟩ ∧ exec .hold .powerOn = .next .powerOn := ⟨rfl, rfl⟩
theorem witness_StartingEdgesDoNotReadH :
    Instr.start 0x61#8 = .reset ∨ Instr.start 0x61#8 = .init ∨ ∃ b, Instr.start 0x61#8 = .start b := .inr (.inr ⟨_, rfl⟩)
theorem witness_StepRunsTheDecodedEdge : (at1 1#32 0x161#11).pending = 0x161#11 :: [] ∧ State.reset.pending = [] := by decide
theorem witness_StepIsNextAtEveryRisingEdge :
    cmdI 0x161#10 = false ∧ cmdI 0x361#10 = true ∧ next .unwritten false 0x361#10 = .value 0x0002B5C4#32 := by decide
theorem witness_InputsBetweenEdgesHaveNoEffect :
    (Pins.mk false true 0x3FF#10).clk = (Pins.mk false false 0x000#10).clk ∧
      ((Pins.mk false true 0x3FF#10).clk = false ∨ true = true) := by decide
theorem witness_RunsComposeInEdgeOrder : runEdges [0x361#11, 0x000#11] .powerOn = .next ⟨⟨.value 0x0002B5C4#32⟩, []⟩ := by rfl
theorem witness_WrittenHStaysWritten :
    Written (at1 0x00001505#32 0x161#11).toBlock ∧ step (at1 0x00001505#32 0x161#11) = .next ⟨⟨.value 0x0002B5C4#32⟩, []⟩ := ⟨⟨_, rfl⟩, rfl⟩
theorem witness_UnwrittenHIsWrittenExactlyByStartingEdges :
    State.powerOn.h = .unwritten ∧ exec .init .powerOn = .next .reset ∧ exec (.absorb 1#8) .powerOn = .next .powerOn := ⟨rfl, rfl, rfl⟩
theorem witness_RunThatStartsAMessageEndsWritten : startsMessage ([0x0A5#11, 0x361#11, 0x162#11].map decode) = true := by decide
theorem witness_HashOutShowsHAtEveryLook :
    State.reset.h = .value 0x00001505#32 ∧ exec (.start 0x61#8) .powerOn = .next ⟨⟨.value 0x0002B5C4#32⟩, []⟩ ∧
      Written State.reset.toBlock ∧ exec .hold .reset = .next .reset := ⟨rfl, rfl, ⟨_, rfl⟩, rfl⟩
theorem witness_NumbersAboveElevenBitsAreNoEdgeWords : 2 ^ 11 ≤ 0x800 ∧ 0x7FF < 2 ^ 11 := by decide
theorem witness_OutOfRangeOperandsAreErrors : (SourceLine.hash [0x63, 0x100]).wellFormed = false ∧ 255 < 256 ∧ 255 ≤ 255 := by decide
theorem witness_HashIsIncremental : State.reset.h = .value (messageHash []) := by decide
theorem witness_LastByteAlwaysShows : 0x00#8 ≠ 0xFF#8 := by decide
theorem witness_HIsTheHashOfTheBytesSinceTheLastStart :
    State.powerOn.h = accumulatorOf none ∧ (at1 0x0002B5C4#32 0#11).h = accumulatorOf (some [0x61#8]) := by decide
theorem witness_UnstartedMessageContinuesTheOldOne :
    (at1 0x0002B5C4#32 0#11).h = .value (messageHash [0x61#8]) ∧
      withoutHolds ([0x162#11, 0x000#11].map decode) = absorbCommands [0x62#8] := by decide
/-- One presentation by each of R63's three starts, with HOLD edges and ignored bits. -/
theorem witness_BlockAgreesWithSoftwareHash :
    presentsMessage [0x2A5#11, 0x0FF#11, 0x161#11] [0x61#8] = true ∧ presentsMessage [0x7FF#11] [] = true ∧
      presentsMessage [0x361#11, 0x162#11, 0x000#11] [0x61#8, 0x62#8] = true := by decide
theorem witness_NonBytesAreRefusedBeforeAnyCommand :
    (∀ x ∈ ([0, 255] : List Int), 0 ≤ x ∧ x ≤ 255) ∧ (∃ x ∈ ([1, 256] : List Int), ¬ (0 ≤ x ∧ x ≤ 255)) ∧
      (∃ x ∈ ([-1] : List Int), ¬ (0 ≤ x ∧ x ≤ 255)) ∧ asBytes .structuredObject = .error .invalidArgument := by decide
theorem witness_NothingOfEarlierMessagesSurvivesAStart : startsMessage ([0x000#11, 0x400#11].map decode) = true := by decide
theorem witness_BlanksAndCommentsAreNoEdges :
    readImm (skipBlanks " 99, 0x64".toList) = some (99, ',' :: " 0x64".toList) := by decide
theorem witness_InstancesAreIsolated : (Platform.mk [.reset, .powerOn]).blocks[1]? = some .powerOn := by rfl
theorem witness_EdgeOfOneBlockLeavesTheOthers :
    (0 : Nat) ≠ 1 ∧ (Platform.mk [.reset, at1 5#32 0x200#11]).edgeAt 1 = .next ⟨[.reset, .reset]⟩ := ⟨by decide, rfl⟩

end Sys2Proof.Tests
end

section
/-! SUPPORT. The edges that take in no byte, as updates of `H` (70_reset_and_hazards.md R79; 40_control_commands.md R47,
R48); the step at a presented edge; looks at a written `H`. -/
namespace Sys2Proof.Machine
open Sys2Proof.Safety

@[simp] theorem exec_reset (s : State) : exec .reset s = .next { s with h := .value seed } := rfl
@[simp] theorem exec_hold (s : State) : exec .hold s = .next s := rfl
@[simp] theorem exec_init (s : State) : exec .init s = .next { s with h := .value seed } := rfl

@[simp] theorem decode_edgeWord_true (cmd : Cmd) : decode (edgeWord true cmd) = .reset := by
  rw [decode, edgeRst_edgeWord, if_pos rfl]

/-- With an edge presented, a step runs what its word decodes to, that word taken off what is pending. -/
theorem step_of_pending {s : State} {ew : EdgeWord} {rest : List EdgeWord} (h : s.pending = ew :: rest) :
    step s = exec (decode ew) { s with pending := rest } := by
  rw [step, sampleEdge_some h]

/-- Only an unwritten `H` can look different at two looks (10_state.md R13, R16). -/
theorem hashOut_eq_of_written {b : Block} (hb : Written b) (look look' : Nat) : hashOut look b = hashOut look' b := by
  obtain ⟨v, hv⟩ := hb
  rw [hashOut_of_value hv, hashOut_of_value hv]

end Sys2Proof.Machine
end

section
/-! PROOFS. The statements of 10_state.md: the value after a reset edge (R15) and the output port (R13). -/
namespace Sys2Proof.Machine

/-- Settles O2: the word of an edge with `rst` = 1 decodes to RESET, which writes `seed` as INIT does. -/
theorem stepAtResetEdgeLeavesSeedInH : Obligations.StepAtResetEdgeLeavesSeedInH := by
  refine ⟨fun s cmd rest hs => ?_, exec_init⟩
  rw [step_of_pending hs, decode_edgeWord_true, exec_reset, seed]

/-- Settles O19: a look at a written `H` gives its value, and HOLD leaves the block as it was. -/
theorem hashOutShowsHAtEveryLook : Obligations.HashOutShowsHAtEveryLook := by
  refine ⟨?bits, ?afterEdge, ?afterHold⟩
  case bits =>
    intro look s v hv i _
    rw [hashOut_of_value hv]
  case afterEdge =>
    intro look look' i s t v _ hv
    exact ⟨hashOut_of_value hv look, hashOut_of_value hv look'⟩
  case afterHold =>
    intro look look' s t hs ht
    rw [exec_hold] at ht
    cases ht
    exact hashOut_eq_of_written hs look look'

end Sys2Proof.Machine
end

section
/-! SUPPORT. The decoder on words put together from their fields, and its inversion: which words decode to which
instruction (30_encoding.md R37, R38); that it undoes the encoder; that R38's rows admit exactly the words it decodes to
their mnemonic. -/
namespace Sys2Proof

@[simp] theorem decode_edgeWord_false (cmd : Cmd) : decode (edgeWord false cmd) = decodeCmd cmd := by
  rw [decode, edgeRst_edgeWord, edgeCmd_edgeWord, if_neg Bool.false_ne_true]

@[simp] theorem decodeCmd_hold (data : Byte) : decodeCmd (formatC 0b00#2 data) = .hold := by
  simp [decodeCmd]

@[simp] theorem decodeCmd_absorb (data : Byte) : decodeCmd (formatC 0b01#2 data) = .absorb data := by
  simp [decodeCmd]

@[simp] theorem decodeCmd_init (data : Byte) : decodeCmd (formatC 0b10#2 data) = .init := by
  simp [decodeCmd]

@[simp] theorem decodeCmd_start (data : Byte) : decodeCmd (formatC 0b11#2 data) = .start data := by
  simp [decodeCmd]

/-- The encoder's words decode to what they encode. -/
@[simp] theorem decode_encode (i : Instr) : decode (encode i) = i := by
  cases i <;> simp [encode, Machine.decode_edgeWord_true]

/-- The field `cmd[9:8]` of a command word (30_encoding.md R37). -/
@[simp] theorem extractLsb'_op_formatC (op : BitVec 2) (data : Byte) : (formatC op data).extractLsb' 8 2 = op := by
  apply BitVec.eq_of_getLsbD_eq
  intro i hi
  rw [BitVec.getLsbD_extractLsb', getLsbD_formatC]
  simp [hi]

/-- The byte of an edge word, read off the whole word. -/
@[simp] theorem extractLsb'_data_edgeWord (rst : Bool) (op : BitVec 2) (data : Byte) :
    (edgeWord rst (formatC op data)).extractLsb' 0 8 = data := by
  apply BitVec.eq_of_getLsbD_eq
  intro i hi
  have h10 : i < 10 := by omega
  rw [BitVec.getLsbD_extractLsb', Nat.zero_add, getLsbD_edgeWord, getLsbD_formatC]
  simp [hi, h10]

/-- `{rst, cmd}` as a number (30_encoding.md R38). -/
theorem toNat_edgeWord (rst : Bool) (cmd : Cmd) : (edgeWord rst cmd).toNat = 1024 * rst.toNat + cmd.toNat := by
  have hcmd : cmd.toNat < 2 ^ 10 := cmd.isLt
  rw [edgeWord, BitVec.toNat_append, ← Nat.shiftLeft_add_eq_or_of_lt hcmd, Nat.shiftLeft_eq, BitVec.toNat_ofBool]
  omega

/-- `{op, data}` as a number (30_encoding.md R37). -/
theorem toNat_formatC (op : BitVec 2) (data : Byte) : (formatC op data).toNat = 256 * op.toNat + data.toNat := by
  have hdata : data.toNat < 2 ^ 8 := data.isLt
  rw [formatC, BitVec.toNat_append, ← Nat.shiftLeft_add_eq_or_of_lt hdata, Nat.shiftLeft_eq]
  omega

/-- The four values of `cmd[9:8]`. -/
theorem op_cases (op : BitVec 2) : op = 0b00#2 ∨ op = 0b01#2 ∨ op = 0b10#2 ∨ op = 0b11#2 := by
  decide +revert

/-- Inversion of the decoder: a word has `rst` = 1, or it is a command of one of the four operations. -/
theorem edgeWord_cases (ew : EdgeWord) :
    (∃ cmd, ew = edgeWord true cmd) ∨ (∃ d, ew = edgeWord false (formatC 0b00#2 d)) ∨
    (∃ d, ew = edgeWord false (formatC 0b01#2 d)) ∨ (∃ d, ew = edgeWord false (formatC 0b10#2 d)) ∨
    (∃ d, ew = edgeWord false (formatC 0b11#2 d)) := by
  obtain ⟨rst, cmd, rfl⟩ := exists_edgeWord ew
  cases rst with
  | true => exact .inl ⟨cmd, rfl⟩
  | false =>
    obtain ⟨op, d, rfl⟩ := exists_formatC cmd
    obtain rfl | rfl | rfl | rfl := op_cases op
    · exact .inr (.inl ⟨d, rfl⟩)
    · exact .inr (.inr (.inl ⟨d, rfl⟩))
    · exact .inr (.inr (.inr (.inl ⟨d, rfl⟩)))
    · exact .inr (.inr (.inr (.inr ⟨d, rfl⟩)))

/-- Under the mask 0x700 a word with `rst` = 1 keeps bit 10, so it fits no pattern of a command. -/
theorem resetWord_and_mask_ne (cmd : Cmd) {w : EdgeWord} (hw : edgeRst w = false) :
    edgeWord true cmd &&& 0x700#11 ≠ w := by
  obtain ⟨op, d, rfl⟩ := exists_formatC cmd
  rw [pattern_of_word]
  rintro rfl
  rw [edgeRst_edgeWord] at hw
  cases hw

/-- Under the mask 0x700 a command's word is its operation at bit 8, the pattern of its row. -/
theorem commandWord_and_mask (op : BitVec 2) (d : Byte) :
    edgeWord false (formatC op d) &&& 0x700#11 = op.setWidth 11 <<< 8 := by
  rw [pattern_of_word]
  decide +revert

theorem resetWord_and_reset (cmd : Cmd) : edgeWord true cmd &&& 0x400#11 = 0x400#11 := by
  rw [reset_bit_of_word]; decide

theorem commandWord_and_reset (cmd : Cmd) : edgeWord false cmd &&& 0x400#11 = 0x000#11 := by
  rw [reset_bit_of_word]; decide

/-- A row of R38's table admits a word exactly when the word decodes to the row's mnemonic. -/
theorem admits_iff_mnemonic (ew : EdgeWord) :
    ∀ r ∈ opcodeTable, r.admits ew = true ↔ mnemonic (decode ew) = r.mnemonic := by
  obtain ⟨cmd, rfl⟩ | ⟨d, rfl⟩ | ⟨d, rfl⟩ | ⟨d, rfl⟩ | ⟨d, rfl⟩ := edgeWord_cases ew
  · simp [opcodeTable, OpcodeRow.admits, mnemonic, Machine.decode_edgeWord_true, resetWord_and_reset,
      resetWord_and_mask_ne, edgeRst]
  all_goals simp [opcodeTable, OpcodeRow.admits, mnemonic, commandWord_and_reset, commandWord_and_mask]

/-- Each mnemonic stands in exactly one row of R38's table. -/
theorem filter_mnemonic_opcodeTable (i : Instr) :
    (opcodeTable.filter (fun r => mnemonic i = r.mnemonic)).map OpcodeRow.mnemonic = [mnemonic i] := by
  cases i <;> rfl

/-- The rows that admit a word: the one of what the word decodes to, and no other. -/
theorem filter_admits_opcodeTable (ew : EdgeWord) :
    (opcodeTable.filter (fun r => r.admits ew)).map OpcodeRow.mnemonic = [mnemonic (decode ew)] := by
  rw [← filter_mnemonic_opcodeTable]
  congr 1
  refine List.filter_congr fun r hr => ?_
  rw [Bool.eq_iff_iff, decide_eq_true_iff]
  exact admits_iff_mnemonic ew r hr

end Sys2Proof
end

section
/-! SUPPORT. What the assembler makes of lines whose operands are bytes (30_encoding.md R43, R44), and runs of commands in
canonical encoding that take in a message (42_message_hash.md R60, R63). -/
namespace Sys2Proof.Machine

@[simp] theorem byteOfImm_toNat (b : Byte) : byteOfImm b.toNat = b :=
  (BitVec.ofNat_toNat 8 b).trans (BitVec.setWidth_eq b)

@[simp] theorem map_byteOfImm_map_toNat (bs : List Byte) : (bs.map BitVec.toNat).map byteOfImm = bs := by
  induction bs with
  | nil => rfl
  | cons b bs ih => rw [List.map_cons, List.map_cons, byteOfImm_toNat, ih]

@[simp] theorem all_isImm8_map_toNat (bs : List Byte) : (bs.map BitVec.toNat).all isImm8 = true := by
  rw [List.all_map, List.all_eq_true]
  intro b _
  have hb : b.toNat < 2 ^ 8 := b.isLt
  exact decide_eq_true (by omega)

/-- A line in range assembles to its expansion. -/
theorem assembleSource_of_wellFormed {l : SourceLine} (h : l.wellFormed = true) :
    assembleSource l = .ok (encodeAll (expansion l)) := by
  rw [assembleSource, if_pos h, encodeAll]

theorem assembleSource_absorbs (bs : List Byte) :
    assembleSource (.absorbs (bs.map BitVec.toNat)) = .ok (encodeAll (absorbCommands bs)) := by
  rw [assembleSource_of_wellFormed (l := .absorbs _) (all_isImm8_map_toNat bs), expansion, map_byteOfImm_map_toNat]

theorem assembleSource_hash (bs : List Byte) :
    assembleSource (.hash (bs.map BitVec.toNat)) = .ok (encodeAll (hashCommands bs)) := by
  rw [assembleSource_of_wellFormed (l := .hash _) (all_isImm8_map_toNat bs), expansion, map_byteOfImm_map_toNat]

theorem assembleSource_hashf (bs : List Byte) :
    assembleSource (.hashf (bs.map BitVec.toNat)) = .ok (encodeAll (hashfCommands bs)) := by
  rw [assembleSource_of_wellFormed (l := .hashf _) (all_isImm8_map_toNat bs), expansion, map_byteOfImm_map_toNat]

theorem encodeAll_cons (i : Instr) (is : List Instr) : encodeAll (i :: is) = encode i :: encodeAll is := rfl
@[simp] theorem absorbCommands_cons (b : Byte) (bs : List Byte) :
    absorbCommands (b :: bs) = .absorb b :: absorbCommands bs := rfl
theorem encodeAll_absorbCommands (bs : List Byte) :
    encodeAll (absorbCommands bs) = bs.map (fun b => encode (.absorb b)) := List.map_map

@[simp] theorem length_encodeAll (is : List Instr) : (encodeAll is).length = is.length := List.length_map _
@[simp] theorem length_absorbCommands (bs : List Byte) : (absorbCommands bs).length = bs.length := List.length_map _
theorem length_hashCommands (bs : List Byte) : (hashCommands bs).length = bs.length + 1 := by simp [hashCommands]
theorem length_hashfCommands (bs : List Byte) : (hashfCommands bs).length = max bs.length 1 := by
  cases bs <;> simp [hashfCommands]

/-- ABSORB and START as updates of `H` (41_absorb_commands.md R54, R55). -/
@[simp] theorem exec_absorb (b : Byte) (s : State) : exec (.absorb b) s = .next { s with h := s.h.absorb b } := rfl
@[simp] theorem exec_start (b : Byte) (s : State) : exec (.start b) s = .next { s with h := .value (hashStep seed b) } := rfl

/-- A run of canonical words runs the instructions they encode, one after the other. -/
theorem runEdges_encodeAll_cons {i : Instr} {s t : State} (is : List Instr) (h : exec i s = .next t) :
    runEdges (encodeAll (i :: is)) s = runEdges (encodeAll is) t := by
  rw [encodeAll_cons, runEdges_cons]
  rw [decode_encode, h]

/-- One ABSORB per byte folds the bytes into a written `H` (42_message_hash.md R60). -/
theorem runEdges_absorbCommands (bs : List Byte) {s : State} {v : Word} (hs : s.h = .value v) :
    runEdges (encodeAll (absorbCommands bs)) s = .next { s with h := .value (absorbAll v bs) } := by
  induction bs generalizing s v with
  | nil => rw [absorbAll_nil, ← hs]; rfl
  | cons b bs ih =>
    have hstep : exec (.absorb b) s = .next { s with h := .value (hashStep v b) } := by
      rw [exec_absorb, hs, absorb_value]
    rw [absorbCommands_cons, runEdges_encodeAll_cons _ hstep, ih rfl, absorbAll_cons]

/-- `HASH` from any state: INIT makes `H` the seed, whatever it was. -/
theorem runEdges_hashCommands (bs : List Byte) (s : State) :
    runEdges (encodeAll (hashCommands bs)) s = .next { s with h := .value (messageHash bs) } := by
  rw [hashCommands, runEdges_encodeAll_cons _ (exec_init s), runEdges_absorbCommands bs rfl, messageHash]

/-- `HASHF` from any state: START begins with the first byte, INIT where there is none. -/
theorem runEdges_hashfCommands (bs : List Byte) (s : State) :
    runEdges (encodeAll (hashfCommands bs)) s = .next { s with h := .value (messageHash bs) } := by
  cases bs with
  | nil => exact runEdges_hashCommands [] s
  | cons b bs =>
    rw [hashfCommands, runEdges_encodeAll_cons _ (exec_start b s), runEdges_absorbCommands bs rfl, messageHash,
      absorbAll_cons]

end Sys2Proof.Machine
end

section
/-! PROOFS. The statements of 30_encoding.md: legal command words (R40), pseudo-instructions (R44), the table of edge
words (R38) and ignored bits (R41). -/
namespace Sys2Proof.Machine

/-- Settles O25: a command word is `{op, data}`, and each of the four values of `op` is a command. -/
theorem everyCommandWordIsLegal : Obligations.EveryCommandWordIsLegal := by
  refine ⟨fun cmd => ?byOp, fun cmd s => ?noFault⟩
  case byOp =>
    obtain ⟨op, d, rfl⟩ := exists_formatC cmd
    obtain rfl | rfl | rfl | rfl := op_cases op <;> simp [mnemonic]
  case noFault =>
    obtain ⟨f, hf⟩ := exec_is_onBlock (decode (edgeWord false cmd))
    exact ⟨_, hf s⟩

/-- Settles O29: a line of bytes is in range and assembles to its expansion, whose run from any state leaves the hash in
`H`, where every look finds it. -/
theorem pseudoInstructionsExpandAndHash : Obligations.PseudoInstructionsExpandAndHash := by
  refine ⟨by decide, fun bs => ?absorbs, fun bs => ?hash, by decide, by decide, by decide, by decide, by decide⟩
  case absorbs => rw [assembleSource_absorbs, encodeAll_absorbCommands]
  case hash =>
    refine ⟨_, _, assembleSource_hash bs, assembleSource_hashf bs, ?_, ?_, ?_, ?_, fun look s => ?_⟩
    · rw [hashCommands, encodeAll_cons, encodeAll_absorbCommands]; rfl
    · cases bs with
      | nil => rfl
      | cons b bs => rw [hashfCommands, encodeAll_cons, encodeAll_absorbCommands]
    · rw [length_encodeAll, length_hashCommands]
    · rw [length_encodeAll, length_hashfCommands]
    · exact ⟨_, _, runEdges_hashCommands bs s, hashOut_of_value rfl look,
        runEdges_hashfCommands bs s, hashOut_of_value rfl look⟩

/-- Settles O24: by the inversion of the decoder, each kind of word meets its own row's mask and match and no other's. -/
theorem decoderIsTheTableOfEdgeWords : Obligations.DecoderIsTheTableOfEdgeWords := by
  refine ⟨toNat_edgeWord, fun ew => ?rows, filter_admits_opcodeTable, by decide, by decide, by decide, fun b => ?canonical⟩
  case rows =>
    obtain ⟨cmd, rfl⟩ | ⟨d, rfl⟩ | ⟨d, rfl⟩ | ⟨d, rfl⟩ | ⟨d, rfl⟩ := edgeWord_cases ew
    · simp [resetWord_and_reset, resetWord_and_mask_ne, edgeRst]
    all_goals simp [commandWord_and_reset, commandWord_and_mask]
  case canonical =>
    rw [encode, encode, toNat_edgeWord, toNat_edgeWord, toNat_formatC, toNat_formatC]
    simp

/-- Settles O26: the decoder reads `rst` and `cmd[9:8]` only, so the ignored bits are free; the fixed words by evaluation. -/
theorem ignoredBitsAreMaskedNotCompared : Obligations.IgnoredBitsAreMaskedNotCompared := by
  refine ⟨fun d => ⟨?hold, ?init⟩, decode_edgeWord_true, by decide⟩
  case hold => rw [decode_edgeWord_false, decodeCmd_hold]
  case init => rw [decode_edgeWord_false, decodeCmd_init]

end Sys2Proof.Machine
end

section
/-! SUPPORT. HOLD edges in a run may be left out (40_control_commands.md R47); what INIT leaves to be seen (R48). -/
namespace Sys2Proof.Machine

theorem exists_exec_eq_next (i : Instr) (s : State) : ∃ t, exec i s = .next t := by
  obtain ⟨f, hf⟩ := exec_is_onBlock i
  exact ⟨s.onBlock f, hf s⟩

theorem runEdges_cons_of_hold {ew : EdgeWord} (hew : decode ew = .hold) (es : List EdgeWord) (s : State) :
    runEdges (ew :: es) s = runEdges es s := by
  apply runEdges_cons
  rw [hew, exec_hold]

/-- Continuations that run alike from every state run alike behind any one edge. -/
theorem runEdges_cons_congr {es es' : List EdgeWord} (h : ∀ s, runEdges es s = runEdges es' s) (ew : EdgeWord)
    (s : State) : runEdges (ew :: es) s = runEdges (ew :: es') s := by
  obtain ⟨t, ht⟩ := exists_exec_eq_next (decode ew) s
  rw [runEdges_cons es ht, runEdges_cons es' ht, h]

/-- HOLD edges may be left out of any run from any state. -/
theorem runEdges_eq_runEdges_filter_ne_hold (es : List EdgeWord) (s : State) :
    runEdges es s = runEdges (es.filter (fun ew => decode ew != .hold)) s := by
  induction es generalizing s with
  | nil => rfl
  | cons ew es ih =>
    by_cases hew : decode ew = .hold
    · rw [runEdges_cons_of_hold hew, ih, List.filter_cons_of_neg (by simp [hew])]
    · rw [List.filter_cons_of_pos (by simp [hew]), runEdges_cons_congr ih]

/-- The hash of the empty message is the seed (42_message_hash.md R58). -/
@[simp] theorem messageHash_nil : messageHash [] = seed := absorbAll_nil seed

theorem hashOut_of_exec_init {s t : State} (h : exec .init s = .next t) (look : Nat) : hashOut look t.toBlock = seed := by
  rw [exec_init] at h
  cases h
  exact hashOut_of_value rfl look

end Sys2Proof.Machine
end

section
/-! PROOFS. The statements of 40_control_commands.md: HOLD (R47) and INIT (R48). -/
namespace Sys2Proof.Machine

/-- Settles O3: HOLD is the identity on states, so by induction on the edges its edges may be left out of a run. -/
theorem holdKeepsStateAndMayStandAnywhere : Obligations.HoldKeepsStateAndMayStandAnywhere := by
  refine ⟨exec_hold, fun d => ?ignoredData, rfl, runEdges_eq_runEdges_filter_ne_hold⟩
  case ignoredData => rw [decode_edgeWord_false, decodeCmd_hold]

/-- Settles O4: INIT writes `seed` whatever `H` was, as RESET does, and `seed` is the hash of the empty message. -/
theorem initLoadsSeedWhateverHWas : Obligations.InitLoadsSeedWhateverHWas := by
  refine ⟨exec_init, fun s a => ?oldH, fun d => ?ignoredData, rfl, fun s t hst => ?twice, fun s => ?asReset,
    fun look s t hst => ?seen⟩
  case oldH => rw [exec_init, exec_init]
  case ignoredData => rw [decode_edgeWord_false, decodeCmd_init]
  case twice =>
    rw [exec_init] at hst
    cases hst
    rw [exec_init]
  case asReset => rw [exec_init, exec_reset]
  case seen =>
    rw [messageHash_nil]
    exact ⟨hashOut_of_exec_init hst look, hashOut_of_exec_init hst look⟩

end Sys2Proof.Machine
end

section
/-! SUPPORT. `Step` as a shift, a sum and a byte in bits 7 to 0 (41_absorb_commands.md R51, R53 items 1 and 2), its
values at the seed and at the corner cases of R54 and R55, and the canonical words of ABSORB and START (30_encoding.md
R37). -/
namespace Sys2Proof.Machine

/-- Bit `i` of `h << 5`: `s[31:5] = h[26:0]`, `s[4:0] = 0` (R51). -/
theorem getLsbD_shifted (h : Word) {i : Nat} (hi : i < 32) :
    (shifted h).getLsbD i = (decide (5 ≤ i) && h.getLsbD (i - 5)) := by
  rw [shifted, shiftDistance, BitVec.getLsbD_shiftLeft]
  simp [hi, ← decide_not]

/-- The sum of R51 is 33 times `h` (R53 item 1). -/
theorem toNat_shifted_add_self (h : Word) : (shifted h + h).toNat = 33 * h.toNat % 2 ^ 32 := by
  rw [shifted, shiftDistance, BitVec.toNat_add, BitVec.toNat_shiftLeft, Nat.shiftLeft_eq]
  omega

/-- `zext_32(b) = {0x000000, b}` (00_scope.md R8). -/
theorem zext32_eq_append (b : Byte) : zext32 b = 0x000000#24 ++ b :=
  BitVec.setWidth_eq_append (by omega)

/-- The byte meets only bits 7 to 0 of the sum: `r[31:8] = t[31:8]`, `r[7:0] = t[7:0] ^ b` (R51). -/
theorem hashStep_eq_append {h : Word} {hi : BitVec 24} {lo : Byte} (hsum : shifted h + h = hi ++ lo) (b : Byte) :
    hashStep h b = hi ++ (lo ^^^ b) := by
  rw [hashStep, hsum, zext32_eq_append, BitVec.xor_append, BitVec.xor_zero]

theorem toNat_hashStep_zeroByte (h : Word) : (hashStep h 0x00#8).toNat = 33 * h.toNat % 2 ^ 32 := by
  have hzero : zext32 0x00#8 = 0#32 := rfl
  rw [hashStep, hzero, BitVec.xor_zero, toNat_shifted_add_self]

/-- From the zero accumulator only the byte is left (R54). -/
theorem hashStep_zero (b : Byte) : hashStep 0x00000000#32 b = zext32 b := by
  have hsum : shifted 0x00000000#32 + 0x00000000#32 = 0#32 := rfl
  rw [hashStep, hsum, BitVec.zero_xor]

/-- Bit 31 alone is lost in the shift and kept by the sum (R54). -/
theorem hashStep_topBit (b : Byte) : hashStep 0x80000000#32 b = 0x80000000#32 ^^^ zext32 b := by
  have hsum : shifted 0x80000000#32 + 0x80000000#32 = 0x80000000#32 := rfl
  rw [hashStep, hsum]

/-- `Step` from the seed: the sum is 0x0002B5A5 (R55). -/
theorem hashStep_seed (b : Byte) : hashStep seed b = 0x0002B5#24 ++ (0xA5#8 ^^^ b) :=
  hashStep_eq_append rfl b

/-- A step from the seed never gives the seed back: bits 31 to 8 are 0x0002B5 and not 0x000015. -/
theorem hashStep_seed_ne_seed (b : Byte) : hashStep seed b ≠ seed := by
  intro hb
  have hhigh : (hashStep seed b).extractLsb' 8 24 = 0x0002B5#24 := by
    rw [hashStep_seed]
    exact BitVec.extractLsb'_append_eq_left
  rw [hb] at hhigh
  exact absurd hhigh (by decide)

theorem exec_absorb_of_value {s : State} {v : Word} (hs : s.h = .value v) (b : Byte) :
    exec (.absorb b) s = .next { s with h := .value (hashStep v b) } := by
  rw [exec_absorb, hs, absorb_value]

theorem exec_absorb_of_unwritten {s : State} (hs : s.h = .unwritten) (b : Byte) : exec (.absorb b) s = .next s := by
  rw [exec_absorb, hs, absorb_unwritten, ← hs]

theorem toNat_encode_absorb (b : Byte) : (encode (.absorb b)).toNat = 0x100 + b.toNat := by
  rw [encode, toNat_edgeWord, toNat_formatC]
  simp

theorem toNat_encode_start (b : Byte) : (encode (.start b)).toNat = 0x300 + b.toNat := by
  rw [encode, toNat_edgeWord, toNat_formatC]
  simp

end Sys2Proof.Machine
end

section
/-! PROOFS. The statements of 41_absorb_commands.md: `Step` (R51), ABSORB (R54) and START (R55). -/
namespace Sys2Proof.Machine

/-- Settles O30: `s` is the shift and `t` the sum of R51; cut at bit 8, the result is the upper part of `t` beside its
lower part combined with the byte. -/
theorem stepIsShiftAddXorBitByBit : Obligations.StepIsShiftAddXorBitByBit := by
  intro h b
  have hcut : hashStep h b = (shifted h + h).extractLsb' 8 24 ++ ((shifted h + h).extractLsb' 0 8 ^^^ b) :=
    hashStep_eq_append (BitVec.extractLsb'_append_extractLsb' (w := 24) (len := 8)).symm b
  refine ⟨shifted h, shifted h + h, fun i hi => getLsbD_shifted h hi, BitVec.toNat_add _ _, ?bits31to8, ?bits7to0⟩
  case bits31to8 =>
    rw [hcut]
    exact BitVec.extractLsb'_append_eq_left
  case bits7to0 =>
    rw [hcut]
    exact BitVec.extractLsb'_append_eq_right

/-- Settles O5: ABSORB is `Step` on a written `H` and nothing on an unwritten one; a run of two ABSORBs is the fold of
`Step` over their bytes. -/
theorem absorbReplacesHByItsStep : Obligations.AbsorbReplacesHByItsStep := by
  refine ⟨fun b _ _ hs => exec_absorb_of_value hs b, fun b _ hs => exec_absorb_of_unwritten hs b,
    fun b => ⟨?decoded, toNat_encode_absorb b⟩, toNat_hashStep_zeroByte, hashStep_zero, rfl, hashStep_topBit,
    fun _ _ b c hs => ?backToBack, rfl⟩
  case decoded => rw [decode_edgeWord_false, decodeCmd_absorb]
  case backToBack => exact runEdges_absorbCommands [b, c] hs

/-- Settles O6: START writes `Step` of the seed, whose bits 31 to 8 are the same for every byte and not those of the
seed, the hash of the empty message. -/
theorem startLeavesStepOfSeedInH : Obligations.StartLeavesStepOfSeedInH := by
  refine ⟨exec_start, fun b s => ?bytes, fun b => ⟨?decoded, toNat_encode_start b⟩, rfl, rfl, rfl, rfl, rfl,
    fun b => ?notEmpty⟩
  case bytes => rw [exec_start, hashStep_seed]
  case decoded => rw [decode_edgeWord_false, decodeCmd_start]
  case notEmpty =>
    rw [messageHash_nil]
    exact hashStep_seed_ne_seed b

end Sys2Proof.Machine
end

section
/-! SUPPORT. A run depends only on what its edges decode to, and not on its HOLD edges (40_control_commands.md R47); the
forms in which a message may be presented all leave its hash in `H`; the host procedure uses one of them
(42_message_hash.md R58 to R63). -/
namespace Sys2Proof.Machine

/-- One further byte is one further `Step` (R58). -/
theorem messageHash_concat (data : List Byte) (b : Byte) :
    messageHash (data ++ [b]) = hashStep (messageHash data) b :=
  List.foldl_concat hashStep seed b data

theorem runEdges_eq_runEdges_encodeAll_decode (es : List EdgeWord) (s : State) :
    runEdges es s = runEdges (encodeAll (es.map decode)) s := by
  induction es generalizing s with
  | nil => rfl
  | cons ew es ih =>
    obtain ⟨t, ht⟩ := exists_exec_eq_next (decode ew) s
    rw [List.map_cons, runEdges_encodeAll_cons _ ht, runEdges_cons es ht, ih]

/-- A run may be replaced by its commands other than HOLD, in canonical encoding. -/
theorem runEdges_eq_runEdges_withoutHolds (es : List EdgeWord) (s : State) :
    runEdges es s = runEdges (encodeAll (withoutHolds (es.map decode))) s := by
  rw [runEdges_eq_runEdges_filter_ne_hold, runEdges_eq_runEdges_encodeAll_decode, withoutHolds, List.filter_map]
  rfl

/-- The forms of R63 are the expansion of HASH, the same begun with RESET, and the expansion of HASHF. -/
theorem mem_messageForms {is : List Instr} {data : List Byte} :
    is ∈ messageForms data ↔
      is = hashCommands data ∨ is = .reset :: absorbCommands data ∨ is = hashfCommands data := by
  cases data with
  | nil =>
    have hforms : messageForms [] = [hashCommands [], .reset :: absorbCommands []] := rfl
    have hashf : hashfCommands [] = hashCommands [] := rfl
    rw [hforms, hashf, List.mem_pair]
    tauto
  | cons b rest =>
    have hforms : messageForms (b :: rest) =
        [hashCommands (b :: rest), .reset :: absorbCommands (b :: rest), hashfCommands (b :: rest)] := rfl
    rw [hforms, List.mem_cons, List.mem_pair]

theorem presentsMessage_iff {es : List EdgeWord} {data : List Byte} :
    presentsMessage es data = true ↔ withoutHolds (es.map decode) ∈ messageForms data :=
  List.contains_iff_mem

/-- A reset edge begins a message as INIT does (70_reset_and_hazards.md R79). -/
theorem runEdges_reset_absorbCommands (data : List Byte) (s : State) :
    runEdges (encodeAll (.reset :: absorbCommands data)) s = .next { s with h := .value (messageHash data) } := by
  rw [runEdges_encodeAll_cons _ (exec_reset s), runEdges_absorbCommands data rfl, messageHash]

theorem runEdges_of_mem_messageForms {is : List Instr} {data : List Byte} (h : is ∈ messageForms data) (s : State) :
    runEdges (encodeAll is) s = .next { s with h := .value (messageHash data) } := by
  obtain rfl | rfl | rfl := mem_messageForms.mp h
  · exact runEdges_hashCommands data s
  · exact runEdges_reset_absorbCommands data s
  · exact runEdges_hashfCommands data s

/-- The post-condition of R63: any presentation of a message, on any block, leaves the message's hash in `H`. -/
theorem runEdges_of_presentsMessage {es : List EdgeWord} {data : List Byte} (h : presentsMessage es data = true)
    (s : State) : runEdges es s = .next { s with h := .value (messageHash data) } := by
  rw [runEdges_eq_runEdges_withoutHolds, runEdges_of_mem_messageForms (presentsMessage_iff.mp h)]

theorem withoutHolds_append (is js : List Instr) : withoutHolds (is ++ js) = withoutHolds is ++ withoutHolds js :=
  List.filter_append is js

@[simp] theorem withoutHolds_holds (n : Nat) : withoutHolds (holds n) = [] := by
  simp [withoutHolds, holds]

theorem withoutHolds_cons {i : Instr} (hi : i ≠ .hold) (is : List Instr) :
    withoutHolds (i :: is) = i :: withoutHolds is :=
  List.filter_cons_of_pos (bne_iff_ne.mpr hi)

/-- Phase 2 is one ABSORB per byte, HOLD edges left out. -/
theorem withoutHolds_absorbPhase (gaps : List Nat) (data : List Byte) :
    withoutHolds (absorbPhase gaps data) = absorbCommands data := by
  induction data generalizing gaps with
  | nil => rfl
  | cons b data ih =>
    rw [absorbPhase, withoutHolds_append, withoutHolds_holds, List.nil_append, withoutHolds_cons (i := .absorb b) nofun,
      ih, absorbCommands_cons]

theorem startPhase_ne_hold : ∀ (c : StartChoice) (data : List Byte), (startPhase c data).1 ≠ .hold
  | .byInit, _ => nofun
  | .byReset, _ => nofun
  | .byStart, [] => nofun
  | .byStart, _ :: _ => nofun

/-- The commands of a call, HOLD edges left out: phase 1's, then one ABSORB per byte left to phase 2. -/
theorem withoutHolds_hostCommands (plan : HostPlan) (data : List Byte) :
    withoutHolds (hostCommands plan data) =
      (startPhase plan.start data).1 :: absorbCommands (startPhase plan.start data).2 := by
  rw [hostCommands, withoutHolds_append, withoutHolds_holds, List.append_nil,
    withoutHolds_cons (startPhase_ne_hold plan.start data), withoutHolds_absorbPhase]

theorem startPhase_mem_messageForms (c : StartChoice) (data : List Byte) :
    (startPhase c data).1 :: absorbCommands (startPhase c data).2 ∈ messageForms data := by
  rw [mem_messageForms]
  cases c with
  | byInit => exact .inl rfl
  | byReset => exact .inr (.inl rfl)
  | byStart =>
    cases data with
    | nil => exact .inl rfl
    | cons b rest => exact .inr (.inr rfl)

@[simp] theorem map_decode_encodeAll (is : List Instr) : (encodeAll is).map decode = is := by
  rw [encodeAll, List.map_map]
  exact List.map_id'' decode_encode is

/-- What the host procedure presents is a presentation of its message, for every plan (R63). -/
theorem presentsMessage_hostCommands (plan : HostPlan) (data : List Byte) :
    presentsMessage (encodeAll (hostCommands plan data)) data = true := by
  rw [presentsMessage_iff, map_decode_encodeAll, withoutHolds_hostCommands]
  exact startPhase_mem_messageForms plan.start data

end Sys2Proof.Machine
end

section
/-! SUPPORT. The host's check of its argument (42_message_hash.md R64), and the call after a check that fails or passes
(R63). -/
namespace Sys2Proof.Machine

theorem byteOfInt_toNat (b : Byte) : byteOfInt (b.toNat : Int) = some b := by
  have hb : b.toNat < 2 ^ 8 := b.isLt
  rw [byteOfInt, if_pos (by omega), Int.toNat_natCast, BitVec.ofNat_toNat, BitVec.setWidth_eq]

theorem byteOfInt_of_not_range {x : Int} (hx : ¬ (0 ≤ x ∧ x ≤ 255)) : byteOfInt x = none :=
  if_neg hx

/-- An integer in 0 to 255 is the number of a byte. -/
theorem exists_byte_of_range {x : Int} (hx : 0 ≤ x ∧ x ≤ 255) : ∃ b : Byte, (b.toNat : Int) = x := by
  obtain ⟨h0, h255⟩ := hx
  refine ⟨BitVec.ofNat 8 x.toNat, ?_⟩
  rw [BitVec.toNat_ofNat]
  omega

theorem exists_bytes_of_range {xs : List Int} (hxs : ∀ x ∈ xs, 0 ≤ x ∧ x ≤ 255) :
    ∃ bs : List Byte, bs.map (fun b => (b.toNat : Int)) = xs := by
  have hrange : xs ∈ {ys : List Int | ∀ y ∈ ys, y ∈ Set.range (fun b : Byte => (b.toNat : Int))} :=
    fun x hx => exists_byte_of_range (hxs x hx)
  rwa [← Set.range_list_map] at hrange

theorem bytesOfInts_map_toNat (bs : List Byte) : bytesOfInts (bs.map (fun b => (b.toNat : Int))) = some bs := by
  induction bs with
  | nil => rfl
  | cons b bs ih => rw [List.map_cons, bytesOfInts, byteOfInt_toNat, ih]

/-- One element that is no byte is enough, wherever it stands. -/
theorem bytesOfInts_of_mem_not_range {xs : List Int} {x : Int} (hx : x ∈ xs) (hrange : ¬ (0 ≤ x ∧ x ≤ 255)) :
    bytesOfInts xs = none := by
  induction hx with
  | head xs => rw [bytesOfInts, byteOfInt_of_not_range hrange]
  | tail y _ ih => rw [bytesOfInts, ih]; cases byteOfInt y <;> rfl

theorem asBytes_map_toNat (bs : List Byte) : asBytes (.integers (bs.map (fun b => (b.toNat : Int)))) = .ok bs := by
  rw [asBytes, bytesOfInts_map_toNat]

theorem asBytes_of_mem_not_range {xs : List Int} {x : Int} (hx : x ∈ xs) (hrange : ¬ (0 ≤ x ∧ x ≤ 255)) :
    asBytes (.integers xs) = .error .invalidArgument := by
  rw [asBytes, bytesOfInts_of_mem_not_range hx hrange]

/-- A check that fails ends the call, with the block as it was. -/
theorem djbHash_of_error {value : HostValue} {e : HostError} (h : asBytes value = .error e) (plan : HostPlan)
    (look : Nat) (s : State) : djbHash plan look value s = .next (.raised e s) := by
  rw [djbHash, h]

/-- A check that passes presents the message and reads its hash off the block (R63, R65). -/
theorem djbHash_of_ok {value : HostValue} {data : List Byte} (h : asBytes value = .ok data) (plan : HostPlan)
    (look : Nat) (s : State) : djbHash plan look value s =
      .next (.returned (messageHash data).toNat { s with h := .value (messageHash data) }) := by
  rw [djbHash, h]
  dsimp only
  rw [runEdges_of_presentsMessage (presentsMessage_hostCommands plan data)]
  dsimp only
  rw [hashOut_of_value rfl]

end Sys2Proof.Machine
end

section
/-! PROOFS. The statements of 42_message_hash.md: the fold (R58, R59), the host's check (R64), and the agreement of the
block with the software hash (R67). -/
namespace Sys2Proof.Machine

/-- Settles O42: a presentation leaves the hash of its message in `H`, where every look finds it, and the host procedure
makes one. -/
theorem blockAgreesWithSoftwareHash : Obligations.BlockAgreesWithSoftwareHash := by
  refine ⟨fun data es look s hes => ?presented, fun data plan look s => ?called⟩
  case presented => exact ⟨_, runEdges_of_presentsMessage hes s, rfl, hashOut_of_value rfl look⟩
  case called => exact ⟨_, djbHash_of_ok (asBytes_map_toNat data) plan look s⟩

/-- Settles O45: integers in range are the numbers of bytes, which the check gives back; one element out of range fails
it, and a failed check ends the call before any edge. -/
theorem nonBytesAreRefusedBeforeAnyCommand : Obligations.NonBytesAreRefusedBeforeAnyCommand := by
  refine ⟨fun xs hxs => ?inRange, fun xs ⟨x, hx, hrange⟩ => asBytes_of_mem_not_range hx hrange, rfl,
    fun plan look value s h => djbHash_of_error h plan look s⟩
  case inRange =>
    obtain ⟨bs, rfl⟩ := exists_bytes_of_range hxs
    exact ⟨bs, asBytes_map_toNat bs, rfl⟩

/-- Settles O35: the empty fold is the seed, and a fold takes its last byte by one `Step`, which is the formula. -/
theorem hashIsTheLeftFoldFromSeed : Obligations.HashIsTheLeftFoldFromSeed :=
  ⟨messageHash_nil, congrArg BitVec.toNat messageHash_nil, messageHash_concat, fun _ => rfl⟩

end Sys2Proof.Machine
end

section
/-! SUPPORT. The block never stops: a step gives a next state whether or not an edge is presented, and so does every
number of steps (60_exceptions.md R68, R76). -/
namespace Sys2Proof.Machine
open Sys2Proof.Safety

/-- With no edge presented the clock is stopped and the state kept (R76). -/
theorem step_of_pending_nil {s : State} (h : s.pending = []) : step s = .next s := by
  rw [step, sampleEdge_none h]

theorem exists_step_eq_next (s : State) : ∃ t, step s = .next t := by
  cases hs : s.pending with
  | nil => exact ⟨s, step_of_pending_nil hs⟩
  | cons ew rest =>
    rw [step_of_pending hs]
    exact exists_exec_eq_next (decode ew) { s with pending := rest }

theorem neverStops (s : State) : NeverStops s := by
  intro n
  induction n generalizing s with
  | zero => exact ⟨s, run_zero s⟩
  | succ n ih =>
    obtain ⟨t, ht⟩ := exists_step_eq_next s
    rw [run_succ n ht]
    exact ih t

end Sys2Proof.Machine
end

section
/-! PROOFS. The statements of 60_exceptions.md: the block raises nothing (R68). -/
namespace Sys2Proof.Machine

/-- Settles O11: every instruction is a function on the block, so every step has a next state, and by induction on their
number so have any number of steps. -/
theorem blockNeverFaultsNorRefuses : Obligations.BlockNeverFaultsNorRefuses :=
  ⟨exists_exec_eq_next, exists_step_eq_next, neverStops⟩

end Sys2Proof.Machine
end

section
/-! SUPPORT. `Next` of R78 by its inputs and by its commands, and as what the decoded edge does; the moments of a waveform
that are steps and those that are none (70_reset_and_hazards.md R78); runs of reset edges (R79). -/
namespace Sys2Proof.Machine

@[simp] theorem next_true (a : Accumulator) (cmd : Cmd) : next a true cmd = .value seed := rfl

theorem next_false_of_cmdA {cmd : Cmd} (hA : cmdA cmd = true) (a : Accumulator) :
    next a false cmd = (baseOperand (cmdI cmd) a).absorb (cmdData cmd) := by
  simp [next, hA]

theorem next_false_of_not_cmdA {cmd : Cmd} (hA : cmdA cmd = false) (a : Accumulator) :
    next a false cmd = baseOperand (cmdI cmd) a := by
  simp [next, hA]

@[simp] theorem next_hold (a : Accumulator) (d : Byte) : next a false (formatC 0b00#2 d) = a := by
  rw [next_false_of_not_cmdA (cmdA_formatC _ d), cmdI_formatC]
  exact baseOperand_false a

@[simp] theorem next_absorb (a : Accumulator) (d : Byte) : next a false (formatC 0b01#2 d) = a.absorb d := by
  rw [next_false_of_cmdA (cmdA_formatC _ d), cmdI_formatC, cmdData_formatC]
  exact congrArg (·.absorb d) (baseOperand_false a)

@[simp] theorem next_init (a : Accumulator) (d : Byte) : next a false (formatC 0b10#2 d) = .value seed := by
  rw [next_false_of_not_cmdA (cmdA_formatC _ d), cmdI_formatC]
  exact baseOperand_true a

@[simp] theorem next_start (a : Accumulator) (d : Byte) :
    next a false (formatC 0b11#2 d) = .value (hashStep seed d) := by
  rw [next_false_of_cmdA (cmdA_formatC _ d), cmdI_formatC, cmdData_formatC]
  exact congrArg (·.absorb d) (baseOperand_true a)

/-- The per-command meanings, reached through the decoder, replace `H` by `Next(H, rst, cmd)` and change nothing else. -/
theorem exec_decode_edgeWord (rst : Bool) (cmd : Cmd) (s : State) :
    exec (decode (edgeWord rst cmd)) s = .next { s with h := next s.h rst cmd } := by
  cases rst with
  | true => rw [decode_edgeWord_true, exec_reset, next_true]
  | false =>
    obtain ⟨op, d, rfl⟩ := exists_formatC cmd
    rw [decode_edgeWord_false]
    obtain rfl | rfl | rfl | rfl := op_cases op
    · rw [decodeCmd_hold, exec_hold, next_hold]
    · rw [decodeCmd_absorb, exec_absorb, next_absorb]
    · rw [decodeCmd_init, exec_init, next_init]
    · rw [decodeCmd_start, exec_start, next_start]

/-- `Next` of a written `H`, with `base` as R78 has it. -/
theorem next_value (v : Word) (rst : Bool) (cmd : Cmd) :
    next (.value v) rst cmd = .value (if rst then seed else
      let base := if cmdI cmd then seed else v
      if cmdA cmd then hashStep base (cmdData cmd) else base) := by
  have hbase : baseOperand (cmdI cmd) (.value v) = .value (if cmdI cmd then seed else v) := by
    cases cmdI cmd <;> rfl
  cases rst with
  | true => exact next_true _ cmd
  | false =>
    cases hA : cmdA cmd with
    | true =>
      rw [next_false_of_cmdA hA, hbase]
      rfl
    | false =>
      rw [next_false_of_not_cmdA hA, hbase]
      rfl

/-- Without SEED in its place an unwritten `H` stays unwritten, whether the byte is taken in or not. -/
theorem next_unwritten_of_not_cmdI {cmd : Cmd} (hI : cmdI cmd = false) :
    next .unwritten false cmd = .unwritten := by
  cases hA : cmdA cmd with
  | true => rw [next_false_of_cmdA hA, hI, baseOperand_false, absorb_unwritten]
  | false => rw [next_false_of_not_cmdA hA, hI, baseOperand_false]

/-- With SEED in its place the old `H` is not used. -/
theorem next_congr_of_cmdI {cmd : Cmd} (hI : cmdI cmd = true) (rst : Bool) (a c : Accumulator) :
    next a rst cmd = next c rst cmd := by
  rw [next, next, hI, baseOperand_true, baseOperand_true]

theorem step_edgeWord (b : Block) (rst : Bool) (cmd : Cmd) (rest : List EdgeWord) :
    step ⟨b, edgeWord rst cmd :: rest⟩ = .next ⟨b.edge rst cmd, rest⟩ := by
  rw [step_of_pending rfl]
  exact exec_decode_edgeWord rst cmd ⟨b, rest⟩

theorem blockMoment_of_rising {clkBefore : Bool} {p : Pins} (h : (!clkBefore && p.clk) = true) (b : Block) :
    blockMoment clkBefore p b = b.edge p.rst p.cmd :=
  if_pos h

theorem blockMoment_of_not_rising {clkBefore : Bool} {p : Pins} (h : ¬ (!clkBefore && p.clk) = true) (b : Block) :
    blockMoment clkBefore p b = b :=
  if_neg h

theorem risingEdges_cons_of_rising {clkBefore : Bool} {p : Pins} (h : (!clkBefore && p.clk) = true) (ps : List Pins) :
    risingEdges clkBefore (p :: ps) = edgeWord p.rst p.cmd :: risingEdges p.clk ps :=
  if_pos h

theorem risingEdges_cons_of_not_rising {clkBefore : Bool} {p : Pins} (h : ¬ (!clkBefore && p.clk) = true)
    (ps : List Pins) : risingEdges clkBefore (p :: ps) = risingEdges p.clk ps :=
  if_neg h

@[simp] theorem blockWave_cons (clkBefore : Bool) (p : Pins) (ps : List Pins) (b : Block) :
    blockWave clkBefore (p :: ps) b = blockWave p.clk ps (blockMoment clkBefore p b) := rfl

/-- A waveform leaves the block as the steps over its rising edges leave it. -/
theorem runEdges_risingEdges (ps : List Pins) (clkBefore : Bool) (b : Block) (rest : List EdgeWord) :
    runEdges (risingEdges clkBefore ps) ⟨b, rest⟩ = .next ⟨blockWave clkBefore ps b, rest⟩ := by
  induction ps generalizing clkBefore b with
  | nil => rfl
  | cons p ps ih =>
    rw [blockWave_cons]
    by_cases hrise : (!clkBefore && p.clk) = true
    · have hedge : exec (decode (edgeWord p.rst p.cmd)) ⟨b, rest⟩ = .next ⟨b.edge p.rst p.cmd, rest⟩ :=
        exec_decode_edgeWord p.rst p.cmd ⟨b, rest⟩
      rw [risingEdges_cons_of_rising hrise, runEdges_cons _ hedge, ih, blockMoment_of_rising hrise]
    · rw [risingEdges_cons_of_not_rising hrise, ih, blockMoment_of_not_rising hrise]

theorem decodeCmd_ne_reset (cmd : Cmd) : decodeCmd cmd ≠ .reset := by
  rw [decodeCmd]
  split <;> exact Instr.noConfusion

/-- A run of reset edges writes the seed at its first edge, and the same value again at each further one. -/
theorem runEdges_map_edgeWord_true {cmds : List Cmd} (hne : cmds ≠ []) (s : State) :
    runEdges (cmds.map (edgeWord true)) s = .next { s with h := .value seed } := by
  induction cmds generalizing s with
  | nil => exact absurd rfl hne
  | cons cmd cmds ih =>
    have hedge : exec (decode (edgeWord true cmd)) s = .next { s with h := .value seed } := by
      rw [decode_edgeWord_true, exec_reset]
    rw [List.map_cons, runEdges_cons _ hedge]
    cases cmds with
    | nil => rfl
    | cons cmd' cmds => exact ih (List.cons_ne_nil _ _) _

end Sys2Proof.Machine
end

section
/-! PROOFS. The statements of 70_reset_and_hazards.md: the step (R78) and the reset edge (R79). -/
namespace Sys2Proof.Machine

/-- Settles O12: what an edge decodes to does to `H` what `Next` says, so by induction on its moments a waveform is the
run of its rising edges. -/
theorem stepIsNextAtEveryRisingEdge : Obligations.StepIsNextAtEveryRisingEdge := by
  refine ⟨fun a rest rst cmd => step_edgeWord ⟨a⟩ rst cmd rest, next_value, fun _ hI => next_unwritten_of_not_cmdI hI,
    fun _ v hI => next_congr_of_cmdI hI false .unwritten (.value v), next_true .unwritten, ?seen, runEdges_risingEdges⟩
  case seen =>
    intro look v rest a rst cmd hnext
    exact ⟨_, step_edgeWord ⟨a⟩ rst cmd rest, hashOut_of_value hnext look⟩

/-- Settles O1: a reset edge writes `seed` as INIT does, no word with `rst` = 0 decodes to RESET, and a moment at which
`clk` does not rise is no step. -/
theorem resetEdgeLoadsSeedAndIgnoresCmd : Obligations.ResetEdgeLoadsSeedAndIgnoresCmd := by
  have hreset : ∀ s : State, exec .reset s = exec .init s := fun s => by rw [exec_reset, exec_init]
  refine ⟨exec_reset, fun cmd => ⟨decode_edgeWord_true cmd, ?otherWords⟩,
    fun s _ hne => runEdges_map_edgeWord_true hne s, fun clkBefore b p hno => ?unsampled, hreset,
    fun look s t hst => ?seen⟩
  case otherWords =>
    rw [decode_edgeWord_false]
    exact decodeCmd_ne_reset cmd
  case unsampled =>
    apply blockMoment_of_not_rising
    obtain hclk | hbefore := hno
    · simp [hclk]
    · simp [hbefore]
  case seen =>
    rw [hreset] at hst
    rw [messageHash_nil]
    exact ⟨hashOut_of_exec_init hst look, hashOut_of_exec_init hst look⟩

end Sys2Proof.Machine
end

section
/-! SUPPORT. The instructions that start a message and those that go on with one, and how runs depend on them
(10_state.md R14, R16; 70_reset_and_hazards.md R81, R82); runs one after the other (20_memory.md R32). -/
namespace Sys2Proof.Machine
open Sys2Proof.Safety

/-- The instruction starts a message, whatever `H` holds (R14, R81). -/
def Starts (i : Instr) : Prop := i = .reset ∨ i = .init ∨ ∃ b, i = .start b

/-- The instruction goes on with what `H` holds (R11). -/
def Continues (i : Instr) : Prop := i = .hold ∨ ∃ b, i = .absorb b

theorem starts_or_continues (i : Instr) : Starts i ∨ Continues i := by
  cases i with
  | reset => exact .inl (.inl rfl)
  | hold => exact .inr (.inl rfl)
  | absorb b => exact .inr (.inr ⟨b, rfl⟩)
  | init => exact .inl (.inr (.inl rfl))
  | start b => exact .inl (.inr (.inr ⟨b, rfl⟩))

/-- RESET, INIT and START write one value, the same into every `H`. -/
theorem exists_exec_of_starts {i : Instr} (hi : Starts i) :
    ∃ v, ∀ s : State, exec i s = .next { s with h := .value v } := by
  obtain rfl | rfl | ⟨b, rfl⟩ := hi
  · exact ⟨seed, exec_reset⟩
  · exact ⟨seed, exec_init⟩
  · exact ⟨hashStep seed b, exec_start b⟩

theorem exec_of_continues_of_unwritten {i : Instr} (hi : Continues i) {s : State} (hs : s.h = .unwritten) :
    exec i s = .next s := by
  obtain rfl | ⟨b, rfl⟩ := hi
  · exact exec_hold s
  · exact exec_absorb_of_unwritten hs b

/-- From a written `H` every instruction leaves one that is written, whose value depends on the old one only. -/
theorem exists_exec_of_value (i : Instr) (v : Word) :
    ∃ v', ∀ s : State, s.h = .value v → exec i s = .next { s with h := .value v' } := by
  obtain hi | rfl | ⟨b, rfl⟩ := starts_or_continues i
  · obtain ⟨v', hv'⟩ := exists_exec_of_starts hi
    exact ⟨v', fun s _ => hv' s⟩
  · refine ⟨v, fun s hs => ?_⟩
    rw [exec_hold, ← hs]
  · exact ⟨hashStep v b, fun _ hs => exec_absorb_of_value hs b⟩

theorem exists_runEdges_of_value (es : List EdgeWord) (v : Word) :
    ∃ v', ∀ s : State, s.h = .value v → runEdges es s = .next { s with h := .value v' } := by
  induction es generalizing v with
  | nil =>
    refine ⟨v, fun s hs => ?_⟩
    rw [runEdges_nil, ← hs]
  | cons e es ih =>
    obtain ⟨u, hu⟩ := exists_exec_of_value (decode e) v
    obtain ⟨v', hv'⟩ := ih u
    exact ⟨v', fun s hs => by rw [runEdges_cons es (hu s hs), hv' _ rfl]⟩

theorem startsMessage_cons {i : Instr} {is : List Instr} (h : startsMessage (i :: is) = true) :
    (i = .hold ∧ startsMessage is = true) ∨ Starts i := by
  obtain hi | rfl | ⟨b, rfl⟩ := starts_or_continues i
  · exact .inr hi
  · exact .inl ⟨rfl, h⟩
  · cases h

/-- A run that starts a message leaves one value in `H`, the same from every state. -/
theorem exists_runEdges_of_startsMessage {es : List EdgeWord} (h : startsMessage (es.map decode) = true) :
    ∃ v, ∀ s : State, runEdges es s = .next { s with h := .value v } := by
  induction es with
  | nil => cases h
  | cons e es ih =>
    obtain ⟨hhold, hrest⟩ | hstart := startsMessage_cons h
    · obtain ⟨v, hv⟩ := ih hrest
      exact ⟨v, fun s => by rw [runEdges_cons_of_hold hhold, hv]⟩
    · obtain ⟨u, hu⟩ := exists_exec_of_starts hstart
      obtain ⟨v, hv⟩ := exists_runEdges_of_value es u
      exact ⟨v, fun s => by rw [runEdges_cons es (hu s), hv _ rfl]⟩

theorem runEdges_append {es : List EdgeWord} {s t : State} (h : runEdges es s = .next t) (fs : List EdgeWord) :
    runEdges (es ++ fs) s = runEdges fs t := by
  induction es generalizing s with
  | nil => cases h; rfl
  | cons e es ih =>
    obtain ⟨u, hu⟩ := exists_exec_eq_next (decode e) s
    rw [runEdges_cons es hu] at h
    rw [List.cons_append, runEdges_cons _ hu, ih h]

/-- One ABSORB makes of the accumulator of a message that of the message with one more byte, or of none that of none. -/
theorem absorb_accumulatorOf (m : Option (List Byte)) (b : Byte) :
    (accumulatorOf m).absorb b = accumulatorOf (messageAfter m (.absorb b)) := by
  cases m with
  | none => rfl
  | some p => exact congrArg Accumulator.value (messageHash_concat p b).symm

/-- Each instruction takes the accumulator of the message in progress to that of the message it makes of it. -/
theorem exec_of_accumulatorOf {s : State} {m : Option (List Byte)} (hs : s.h = accumulatorOf m) (i : Instr) :
    exec i s = .next { s with h := accumulatorOf (messageAfter m i) } := by
  cases i with
  | reset => exact exec_reset s
  | hold =>
    rw [exec_hold, messageAfter, ← hs]
  | absorb b => rw [exec_absorb, hs, absorb_accumulatorOf]
  | init => exact exec_init s
  | start b => exact exec_start b s

/-- The invariant along a run: `H` is the accumulator of the message in progress. -/
theorem runEdges_of_accumulatorOf (es : List EdgeWord) {s : State} {m : Option (List Byte)}
    (hs : s.h = accumulatorOf m) :
    runEdges es s = .next { s with h := accumulatorOf ((es.map decode).foldl messageAfter m) } := by
  induction es generalizing s m with
  | nil => rw [runEdges_nil, List.map_nil, List.foldl_nil, ← hs]
  | cons e es ih => rw [runEdges_cons es (exec_of_accumulatorOf hs (decode e)), ih rfl, List.map_cons, List.foldl_cons]

/-- A moment whose level is low, or was high before, is no rising edge (10_state.md R23). -/
theorem not_rising_of_low_or_high {clkBefore clk : Bool} (h : clk = false ∨ clkBefore = true) :
    ¬ (!clkBefore && clk) = true := by
  obtain rfl | rfl := h <;> simp

end Sys2Proof.Machine
end

section
/-! PROOFS. The statements of 10_state.md and 70_reset_and_hazards.md about what `H` holds after a step and after a run
(R10, R12, R14, R16, R81, R82), and of 20_memory.md about runs (R32). -/
namespace Sys2Proof.Machine
open Sys2Proof.Safety

/-- Settles O40: the message in progress is an invariant of each instruction, so by induction of every run. -/
theorem hIsTheHashOfTheBytesSinceTheLastStart : Obligations.HIsTheHashOfTheBytesSinceTheLastStart :=
  fun es _ _ hs => runEdges_of_accumulatorOf es hs

/-- Settles O16: with an edge presented the step is an instruction, which leaves a written `H` written; with none the
state is kept. -/
theorem writtenHStaysWritten : Obligations.WrittenHStaysWritten := by
  rintro s t ⟨v, hv⟩ hst
  cases hpending : s.pending with
  | nil =>
    rw [step_of_pending_nil hpending] at hst
    cases hst
    exact ⟨v, hv⟩
  | cons ew rest =>
    obtain ⟨v', hv'⟩ := exists_exec_of_value (decode ew) v
    rw [step_of_pending hpending, hv' { s with pending := rest } hv] at hst
    cases hst
    exact ⟨v', rfl⟩

/-- Settles O14: by induction on the first run, whose edges each give a next state. -/
theorem runsComposeInEdgeOrder : Obligations.RunsComposeInEdgeOrder :=
  fun _ fs _ _ h => runEdges_append h fs

/-- Settles O17: an instruction that starts a message writes `H` and one that goes on leaves an unwritten `H` as it is;
every instruction is one of the two, and no `H` is both written and unwritten. -/
theorem unwrittenHIsWrittenExactlyByStartingEdges : Obligations.UnwrittenHIsWrittenExactlyByStartingEdges := by
  intro i s t hs hst
  have hwrites (hi : Starts i) : Written t.toBlock := by
    obtain ⟨v, hv⟩ := exists_exec_of_starts hi
    rw [hv] at hst
    cases hst
    exact ⟨v, rfl⟩
  have hkeeps (hi : Continues i) : t.h = .unwritten := by
    rw [exec_of_continues_of_unwritten hi hs] at hst
    cases hst
    exact hs
  have hexclusive : Written t.toBlock → t.h ≠ .unwritten := by
    rintro ⟨v, hv⟩ hu
    rw [hv] at hu
    cases hu
  refine ⟨⟨fun hw => ?starts, hwrites⟩, ⟨fun hu => ?continues, hkeeps⟩⟩
  case starts => exact (starts_or_continues i).resolve_right fun hi => hexclusive hw (hkeeps hi)
  case continues => exact (starts_or_continues i).resolve_left fun hi => hexclusive (hwrites hi) hu

/-- Settles O18: such a run leaves a value in `H`. -/
theorem runThatStartsAMessageEndsWritten : Obligations.RunThatStartsAMessageEndsWritten := by
  intro es s h
  obtain ⟨v, hv⟩ := exists_runEdges_of_startsMessage h
  exact ⟨_, hv s, v, rfl⟩

/-- Settles O46: the value that such a run leaves in `H` is the same from every state. -/
theorem nothingOfEarlierMessagesSurvivesAStart : Obligations.NothingOfEarlierMessagesSurvivesAStart := by
  intro es s a h
  obtain ⟨v, hv⟩ := exists_runEdges_of_startsMessage h
  rw [hv, hv]

/-- Settles O7: INIT leaves the seed, and ABSORB then takes the `Step` of it that START takes. -/
theorem startIsInitThenAbsorb : Obligations.StartIsInitThenAbsorb := by
  intro b s t hst
  rw [exec_init] at hst
  cases hst
  rw [exec_start, exec_absorb_of_value rfl]

/-- Settles O8: an instruction is a function on the block, whose one field is `H`. -/
theorem edgesChangeNothingButH : Obligations.EdgesChangeNothingButH := by
  intro i s t hst
  refine ⟨?frame, ?hold⟩
  case frame =>
    obtain ⟨f, hf⟩ := exec_is_onBlock i
    rw [hf] at hst
    cases hst
    rfl
  case hold =>
    rintro rfl
    rw [exec_hold] at hst
    cases hst
    rfl

/-- Settles O9: the value that such an edge writes is the same for every `H`. -/
theorem startingEdgesDoNotReadH : Obligations.StartingEdgesDoNotReadH := by
  intro i s a hi
  obtain ⟨v, hv⟩ := exists_exec_of_starts hi
  rw [hv, hv]

/-- Settles O10: the two cases of sampling an edge. -/
theorem stepRunsTheDecodedEdge : Obligations.StepRunsTheDecodedEdge :=
  ⟨fun _ _ _ => step_of_pending, fun _ => step_of_pending_nil⟩

/-- Settles O13: a moment at which `clk` does not rise leaves the block as it is, whatever its other inputs. -/
theorem inputsBetweenEdgesHaveNoEffect : Obligations.InputsBetweenEdgesHaveNoEffect := by
  intro clkBefore b p q hclk hno
  have hnoq : q.clk = false ∨ clkBefore = true := hclk ▸ hno
  rw [blockMoment_of_not_rising (not_rising_of_low_or_high hno),
    blockMoment_of_not_rising (not_rising_of_low_or_high hnoq)]

/-- Settles O15: both states are literals. -/
theorem resetStateHoldsSeed : Obligations.ResetStateHoldsSeed :=
  ⟨rfl, rfl, ⟨seed, rfl⟩, nofun⟩

/-- Settles O50: the inversion of `exec`, and that a block has one field. -/
theorem pendingEdgesAreNoStateOfTheBlock : Obligations.PendingEdgesAreNoStateOfTheBlock := by
  refine ⟨fun i => ?oneFunction, fun ⟨_⟩ ⟨_⟩ h => congrArg Block.mk h⟩
  case oneFunction =>
    obtain ⟨f, hf⟩ := exec_is_onBlock i
    exact ⟨f, fun b rest => hf ⟨b, rest⟩⟩

end Sys2Proof.Machine
end

section
/-! SUPPORT. One edge of a platform, and a schedule edge by edge (60_exceptions.md R77; log entry 11). -/
namespace Sys2Proof.Machine

/-- Inversion: the block at the place takes one step, or there is no such place. -/
theorem Platform.edgeAt_cases (k : Nat) (p : Platform) :
    (p.blocks[k]? = none ∧ p.edgeAt k = .next p) ∨
    ∃ s t, p.blocks[k]? = some s ∧ step s = .next t ∧ p.edgeAt k = .next ⟨p.blocks.set k t⟩ := by
  cases hk : p.blocks[k]? with
  | none => exact .inl ⟨rfl, by rw [Platform.edgeAt, hk]⟩
  | some s =>
    obtain ⟨t, ht⟩ := exists_step_eq_next s
    refine .inr ⟨s, t, rfl, ht, ?_⟩
    rw [Platform.edgeAt, hk]
    dsimp only
    rw [ht]

theorem Platform.schedule_cons {k : Nat} {p q : Platform} (h : p.edgeAt k = .next q) (ks : List Nat) :
    p.schedule (k :: ks) = q.schedule ks := by
  rw [Platform.schedule, h]

theorem Platform.edgeAt_getElem?_of_ne {k j : Nat} {p q : Platform} (hj : j ≠ k) (h : p.edgeAt k = .next q) :
    q.blocks[j]? = p.blocks[j]? := by
  obtain ⟨-, hp⟩ | ⟨s, t, -, -, hp⟩ := p.edgeAt_cases k
  · rw [hp] at h
    cases h
    rfl
  · rw [hp] at h
    cases h
    exact List.getElem?_set_ne hj.symm

/-- A schedule always has an end, and each block of it stands where its own steps alone have taken it. -/
theorem Platform.exists_schedule (ks : List Nat) (p : Platform) :
    ∃ q, p.schedule ks = .next q ∧ q.blocks.length = p.blocks.length ∧
      ∀ (k : Nat) (s : State), p.blocks[k]? = some s →
        ∃ t, q.blocks[k]? = some t ∧ Host.Core.run Sys2Proof.core (ks.count k) s = .next t := by
  induction ks generalizing p with
  | nil => exact ⟨p, rfl, rfl, fun _ s hs => ⟨s, hs, run_zero s⟩⟩
  | cons k ks ih =>
    obtain ⟨hnone, hp⟩ | ⟨u, v, hu, hstep, hp⟩ := p.edgeAt_cases k
    · obtain ⟨q, hq, hlength, hblocks⟩ := ih p
      refine ⟨q, by rw [schedule_cons hp, hq], hlength, fun j s hs => ?_⟩
      have hkj : k ≠ j := by
        rintro rfl
        rw [hnone] at hs
        cases hs
      rw [List.count_cons_of_ne hkj]
      exact hblocks j s hs
    · obtain ⟨q, hq, hlength, hblocks⟩ := ih ⟨p.blocks.set k v⟩
      refine ⟨q, by rw [schedule_cons hp, hq], hlength.trans List.length_set, fun j s hs => ?_⟩
      by_cases hkj : k = j
      · subst hkj
        obtain rfl : u = s := Option.some.inj (hu.symm.trans hs)
        obtain ⟨hk, -⟩ := List.getElem?_eq_some_iff.mp hu
        rw [List.count_cons_self, run_succ _ hstep]
        exact hblocks k v (List.getElem?_set_self hk)
      · rw [List.count_cons_of_ne hkj]
        exact hblocks j s ((List.getElem?_set_ne hkj).trans hs)

end Sys2Proof.Machine
end

section
/-! PROOFS. The statements of 60_exceptions.md about several blocks (R77). -/
namespace Sys2Proof.Machine

/-- Settles O48: by induction on the schedule, whose first edge is one step of one block and leaves the others. -/
theorem instancesAreIsolated : Obligations.InstancesAreIsolated :=
  Platform.exists_schedule

/-- Settles O49: an edge sets the block at its own place. -/
theorem edgeOfOneBlockLeavesTheOthers : Obligations.EdgeOfOneBlockLeavesTheOthers :=
  fun _ _ _ _ hj h => Platform.edgeAt_getElem?_of_ne hj h

end Sys2Proof.Machine
end

section
/-! SUPPORT. `Step` as 33 times `h` with the byte in bits 7 to 0, and what follows of it (41_absorb_commands.md R53):
as a number, its quotient by 256, its inverse. -/
namespace Sys2Proof.Machine

theorem hashStep_eq_mul_xor (h : Word) (b : Byte) : hashStep h b = 33#32 * h ^^^ zext32 b := by
  have hsum : shifted h + h = 33#32 * h := by
    apply BitVec.eq_of_toNat_eq
    rw [toNat_shifted_add_self, BitVec.toNat_mul]
    rfl
  rw [hashStep, hsum]

@[simp] theorem toNat_zext32 (b : Byte) : (zext32 b).toNat = b.toNat :=
  BitVec.toNat_setWidth_of_le (by omega)

theorem zext32_xor (b c : Byte) : zext32 (b ^^^ c) = zext32 b ^^^ zext32 c :=
  BitVec.setWidth_xor

theorem zext32_injective : Function.Injective zext32 := by
  intro b c hbc
  apply BitVec.eq_of_toNat_eq
  rw [← toNat_zext32 b, hbc, toNat_zext32]

theorem toNat_hashStep (h : Word) (b : Byte) : (hashStep h b).toNat = 33 * h.toNat % 2 ^ 32 ^^^ b.toNat := by
  rw [hashStep, BitVec.toNat_xor, toNat_shifted_add_self, toNat_zext32]

/-- The byte reaches no bit above bit 7 (R53 item 2). -/
theorem toNat_hashStep_div (h : Word) (b : Byte) : (hashStep h b).toNat / 256 = 33 * h.toNat % 2 ^ 32 / 256 := by
  have hb : b.toNat / 2 ^ 8 = 0 := Nat.div_eq_of_lt b.isLt
  calc (hashStep h b).toNat / 2 ^ 8
      = 33 * h.toNat % 2 ^ 32 / 2 ^ 8 ^^^ b.toNat / 2 ^ 8 := by rw [toNat_hashStep, Nat.xor_div_two_pow]
    _ = 33 * h.toNat % 2 ^ 32 / 2 ^ 8 := by rw [hb, Nat.xor_zero]

/-- Two bytes show in the results as they differ (R53 item 2). -/
theorem hashStep_xor_hashStep (h : Word) (b c : Byte) : hashStep h b ^^^ hashStep h c = zext32 (b ^^^ c) := by
  calc (shifted h + h ^^^ zext32 b) ^^^ (shifted h + h ^^^ zext32 c)
      = (shifted h + h ^^^ (shifted h + h)) ^^^ (zext32 b ^^^ zext32 c) := by ac_rfl
    _ = zext32 (b ^^^ c) := by rw [BitVec.xor_self, BitVec.zero_xor, zext32_xor]

/-- Different bytes give different results (R53 item 3). -/
theorem hashStep_injective (h : Word) : Function.Injective (hashStep h) :=
  fun _ _ hbc => zext32_injective ((BitVec.xor_right_inj _).mp hbc)

/-- `Step` with a known byte is undone by `hashUnstep` and by nothing else (R53 item 4). -/
theorem hashStep_eq_iff (h r : Word) (b : Byte) : hashStep h b = r ↔ h = hashUnstep r b := by
  have hinverse : inverseOf33 * 33#32 = 1#32 := rfl
  have hinverse' : 33#32 * inverseOf33 = 1#32 := rfl
  rw [hashStep_eq_mul_xor, hashUnstep]
  constructor
  · rintro rfl
    rw [BitVec.xor_assoc, BitVec.xor_self, BitVec.xor_zero, ← BitVec.mul_assoc, hinverse, BitVec.one_mul]
  · rintro rfl
    rw [← BitVec.mul_assoc, hinverse', BitVec.one_mul, BitVec.xor_assoc, BitVec.xor_self, BitVec.xor_zero]

theorem hashStep_bijective (b : Byte) : Function.Bijective (fun h => hashStep h b) := by
  refine ⟨fun h k hhk => ?injective, fun r => ⟨hashUnstep r b, (hashStep_eq_iff _ r b).mpr rfl⟩⟩
  case injective =>
    have hh := (hashStep_eq_iff h (hashStep k b) b).mp hhk
    have hk := (hashStep_eq_iff k (hashStep k b) b).mp rfl
    rw [hh, ← hk]

/-- While `33 * h` fits 32 bits, bounds on `h` are bounds on its `Step`, the byte moving it by less than 256. -/
theorem hashStep_bounds {h : Word} {low high : Nat} (hlow : low ≤ h.toNat) (hhigh : h.toNat ≤ high)
    (hfits : 33 * high < 2 ^ 32) (b : Byte) :
    33 * low / 256 * 256 ≤ (hashStep h b).toNat ∧ (hashStep h b).toNat ≤ 33 * high / 256 * 256 + 255 := by
  have hdiv : (hashStep h b).toNat / 256 = 33 * h.toNat / 256 := by
    rw [toNat_hashStep_div, Nat.mod_eq_of_lt (by omega)]
  have hleft : 33 * low / 256 ≤ 33 * h.toNat / 256 := Nat.div_le_div_right (by omega)
  have hright : 33 * h.toNat / 256 ≤ 33 * high / 256 := Nat.div_le_div_right (by omega)
  omega

theorem messageHash_one_bounds (a : Byte) :
    177408 ≤ (messageHash [a]).toNat ∧ (messageHash [a]).toNat ≤ 177663 :=
  hashStep_bounds (h := seed) (low := 5381) (high := 5381) (by decide) (by decide) (by decide) a

theorem messageHash_two_bounds (a b : Byte) :
    5854464 ≤ (messageHash [a, b]).toNat ∧ (messageHash [a, b]).toNat ≤ 5862911 := by
  obtain ⟨hlow, hhigh⟩ := messageHash_one_bounds a
  exact hashStep_bounds hlow hhigh (by decide) b

theorem messageHash_three_bounds (a b c : Byte) :
    193197312 ≤ (messageHash [a, b, c]).toNat ∧ (messageHash [a, b, c]).toNat ≤ 193476095 := by
  obtain ⟨hlow, hhigh⟩ := messageHash_two_bounds a b
  exact hashStep_bounds hlow hhigh (by decide) c

theorem wraps_eq_true {h : Word} (hh : 2 ^ 32 ≤ 33 * h.toNat) : wraps h = true := decide_eq_true hh

theorem wraps_eq_false {h : Word} (hh : 33 * h.toNat < 2 ^ 32) : wraps h = false := decide_eq_false (by omega)

end Sys2Proof.Machine
end

section
/-! PROOFS. The derived statements of 41_absorb_commands.md about `Step` (R53) and about overflow (R54). -/
namespace Sys2Proof.Machine

/-- Settles O31: the shift and the sum are the product by 33, and the byte meets bits 7 to 0 of it only. -/
theorem stepIsTimes33WithByteInLowBits : Obligations.StepIsTimes33WithByteInLowBits :=
  ⟨hashStep_eq_mul_xor, fun h b c => ⟨hashStep_xor_hashStep h b c, toNat_hashStep_div h b⟩⟩

/-- Settles O32: exclusive-or with one word is injective, and 33 has an inverse modulo 2^32. -/
theorem stepIsInjectiveInByteAndBijectiveInH : Obligations.StepIsInjectiveInByteAndBijectiveInH :=
  ⟨hashStep_injective, hashStep_bijective, hashStep_eq_iff⟩

/-- Settles O33: `33 * h` is `h` modulo 2^32 exactly when `32 * h` is a multiple of 2^32. -/
theorem fixedPointsOfZeroByteAreMultiples : Obligations.FixedPointsOfZeroByteAreMultiples := by
  intro h
  have hlt : h.toNat < 2 ^ 32 := h.isLt
  rw [← BitVec.toNat_inj, toNat_hashStep_zeroByte]
  omega

/-- Settles O34: the bounds after each byte, which the byte itself moves by less than 256; the bytes that meet them. -/
theorem fourthByteIsTheFirstToWrap : Obligations.FourthByteIsTheFirstToWrap := by
  refine ⟨fun a b c => ?bounds, ⟨0xA5#8, 0x00#8, 0x00#8, rfl⟩, ⟨0x5A#8, 0x20#8, 0x20#8, rfl⟩⟩
  case bounds =>
    have hone := messageHash_one_bounds a
    have htwo := messageHash_two_bounds a b
    obtain ⟨hlow, hhigh⟩ := messageHash_three_bounds a b c
    exact ⟨rfl, wraps_eq_false (by omega), wraps_eq_false (by omega), wraps_eq_true (by omega), by omega, hlow, hhigh⟩

end Sys2Proof.Machine
end

section
/-! SUPPORT. Messages cut in two, the recurrence in unbounded numbers, and which words are hashes (42_message_hash.md
R60 to R62; 41_absorb_commands.md R52). -/
namespace Sys2Proof.Machine

theorem messageHash_append (x y : List Byte) : messageHash (x ++ y) = absorbAll (messageHash x) y :=
  List.foldl_append

/-- The accumulator after the first part is all that the block needs to go on (R60). -/
theorem runEdges_absorbCommands_of_messageHash (x y : List Byte) {s : State} (hs : s.h = .value (messageHash x)) :
    runEdges (encodeAll (absorbCommands y)) s = .next { s with h := .value (messageHash (x ++ y)) } := by
  rw [runEdges_absorbCommands y hs, messageHash_append]

/-- Reducing before a step or after it gives the same. -/
theorem toNat_hashStep_of_mod {h : Word} {x : Nat} (hx : h.toNat = x % 2 ^ 32) (b : Byte) :
    (hashStep h b).toNat = hashStepUnbounded x b % 2 ^ 32 := by
  have hsum : 33 * h.toNat % 2 ^ 32 = (x * 32 + x) % 2 ^ 32 := by omega
  have hb : b.toNat % 2 ^ 32 = b.toNat := Nat.mod_eq_of_lt (by omega)
  rw [toNat_hashStep, hashStepUnbounded, Nat.xor_mod_two_pow, hsum, hb]

theorem toNat_absorbAll_of_mod (data : List Byte) {h : Word} {x : Nat} (hx : h.toNat = x % 2 ^ 32) :
    (absorbAll h data).toNat = data.foldl hashStepUnbounded x % 2 ^ 32 := by
  induction data generalizing h x with
  | nil => exact hx
  | cons b data ih => exact ih (toNat_hashStep_of_mod hx b)

/-- Every word whose bits 31 to 8 are `u` is the hash of some message. -/
def ReachedAbove (u : BitVec 24) : Prop := ∀ lo : Byte, ∃ data : List Byte, messageHash data = u ++ lo

/-- One byte from the seed reaches every low byte above 0x0002B5 (R55). -/
theorem reachedAbove_seed : ReachedAbove 0x0002B5#24 := by
  intro lo
  refine ⟨[0xA5#8 ^^^ lo], ?_⟩
  calc hashStep seed (0xA5#8 ^^^ lo)
      = 0x0002B5#24 ++ (0xA5#8 ^^^ (0xA5#8 ^^^ lo)) := hashStep_seed _
    _ = 0x0002B5#24 ++ lo := by rw [← BitVec.xor_assoc, BitVec.xor_self, BitVec.zero_xor]

theorem toNat_append_byte (u : BitVec 24) (lo : Byte) : (u ++ lo).toNat = 256 * u.toNat + lo.toNat := by
  have hlo : lo.toNat < 2 ^ 8 := lo.isLt
  rw [BitVec.toNat_append, ← Nat.shiftLeft_add_eq_or_of_lt hlo, Nat.shiftLeft_eq]
  omega

/-- Every `d` up to 32 is what 33 times some byte carries above bit 7: 33 is less than 256, so none is stepped over. -/
theorem exists_byte_carrying {d : Nat} (hd : d ≤ 32) : ∃ lo : Byte, 33 * lo.toNat / 256 = d := by
  obtain ⟨q, hq, hlow, hhigh⟩ : ∃ q < 2 ^ 8, 256 * d ≤ 33 * q ∧ 33 * q < 256 * (d + 1) :=
    ⟨(256 * d + 32) / 33, by omega, by omega, by omega⟩
  refine ⟨BitVec.ofNat 8 q, ?_⟩
  rw [BitVec.toNat_ofNat, Nat.mod_eq_of_lt hq]
  omega

/-- One more byte: the top becomes 33 times itself and a carry of the low byte's product, freely chosen from 0 to 32. -/
theorem ReachedAbove.next {u : BitVec 24} (hu : ReachedAbove u) {d : Nat} (hd : d ≤ 32) :
    ReachedAbove (33#24 * u + BitVec.ofNat 24 d) := by
  intro target
  obtain ⟨lo, hlo⟩ := exists_byte_carrying hd
  obtain ⟨data, hdata⟩ := hu lo
  have hsum : shifted (u ++ lo) + (u ++ lo) = (33#24 * u + BitVec.ofNat 24 d) ++ (33#8 * lo) := by
    have htop : (33#24 * u + BitVec.ofNat 24 d).toNat = (33 * u.toNat + d) % 2 ^ 24 := by simp
    have hlow : (33#8 * lo).toNat = 33 * lo.toNat % 256 := by simp
    apply BitVec.eq_of_toNat_eq
    rw [toNat_shifted_add_self, toNat_append_byte, toNat_append_byte, htop, hlow]
    omega
  refine ⟨data ++ [33#8 * lo ^^^ target], ?_⟩
  rw [messageHash_concat, hdata, hashStep_eq_append hsum, ← BitVec.xor_assoc, BitVec.xor_self, BitVec.zero_xor]

/-- `k` more bytes: the carries are the `k` digits of a number in base 33. -/
theorem ReachedAbove.after {u : BitVec 24} (hu : ReachedAbove u) (k : Nat) {d : Nat} (hd : d < 33 ^ k) :
    ReachedAbove (BitVec.ofNat 24 (33 ^ k) * u + BitVec.ofNat 24 d) := by
  induction k generalizing d with
  | zero =>
    obtain rfl : d = 0 := by omega
    simpa using hu
  | succ k ih =>
    have hquot : d / 33 < 33 ^ k := by omega
    have hdigit : d % 33 ≤ 32 := by omega
    have htop : 33#24 * (BitVec.ofNat 24 (33 ^ k) * u + BitVec.ofNat 24 (d / 33)) + BitVec.ofNat 24 (d % 33) =
        BitVec.ofNat 24 (33 ^ (k + 1)) * u + BitVec.ofNat 24 d := by
      rw [BitVec.mul_add, ← BitVec.mul_assoc, ← BitVec.ofNat_mul, ← BitVec.ofNat_mul, BitVec.add_assoc,
        ← BitVec.ofNat_add, Nat.div_add_mod, Nat.pow_succ']
    rw [← htop]
    exact (ih hquot).next hdigit

/-- Five digits in base 33 are enough for 24 bits, as `2 ^ 24 < 33 ^ 5`. -/
theorem reachedAbove (u : BitVec 24) : ReachedAbove u := by
  have hd : (u - BitVec.ofNat 24 (33 ^ 5) * 0x0002B5#24).toNat < 33 ^ 5 :=
    (BitVec.isLt _).trans (by decide)
  have h := reachedAbove_seed.after 5 hd
  rwa [BitVec.ofNat_toNat, BitVec.setWidth_eq, BitVec.add_comm, BitVec.sub_add_cancel] at h

end Sys2Proof.Machine
end

section
/-! PROOFS. The derived statements of 42_message_hash.md about the whole message (R60 to R62), with S4 of
95_test_vectors.md and R82 of 70_reset_and_hazards.md. -/
namespace Sys2Proof.Machine

/-- Settles O36: a fold over two lists is the fold over the second from where the first ends. -/
theorem hashIsIncremental : Obligations.HashIsIncremental :=
  ⟨messageHash_append, fun x y _ hs => runEdges_absorbCommands_of_messageHash x y hs⟩

/-- Settles O37: by induction on the bytes, from any number that is the accumulator modulo 2^32. -/
theorem hashIsUnboundedHashReduced : Obligations.HashIsUnboundedHashReduced :=
  fun data => toNat_absorbAll_of_mod data (h := seed) (x := 5381) rfl

/-- Settles O38: the last `Step` is injective in its byte and takes it into bits 7 to 0 only. -/
theorem lastByteAlwaysShows : Obligations.LastByteAlwaysShows := by
  intro data b c hbc
  rw [messageHash_concat, messageHash_concat]
  refine ⟨fun heq => hbc (hashStep_injective _ heq), ?sameAbove⟩
  case sameAbove => rw [toNat_hashStep_div, toNat_hashStep_div]

/-- Settles O39: after the first byte each further one multiplies the upper 24 bits by 33 and adds a digit of our
choice, so six bytes reach every word. -/
theorem everyWordIsTheHashOfAMessage : Obligations.EveryWordIsTheHashOfAMessage := by
  intro w
  obtain ⟨data, hdata⟩ := reachedAbove (w.extractLsb' 8 24) (w.extractLsb' 0 8)
  exact ⟨data, hdata.trans (BitVec.extractLsb'_append_extractLsb' (w := 24) (len := 8))⟩

/-- Settles O41: without its HOLD edges the run is one ABSORB per byte. -/
theorem unstartedMessageContinuesTheOldOne : Obligations.UnstartedMessageContinuesTheOldOne := by
  intro es x y s hs hes
  rw [runEdges_eq_runEdges_withoutHolds, hes, runEdges_absorbCommands_of_messageHash x y hs]

end Sys2Proof.Machine
end

section
/-! SUPPORT. How many edges a message takes (70_reset_and_hazards.md R86). -/
namespace Sys2Proof.Machine

/-- A list of commands is as long as its HOLDs and the others together. -/
theorem length_eq_length_withoutHolds_add (is : List Instr) :
    is.length = (withoutHolds is).length + (is.filter (fun i => i == .hold)).length := by
  rw [is.length_eq_length_filter_add (fun i => i == .hold), Nat.add_comm]
  rfl

theorem length_startPhase (c : StartChoice) (data : List Byte) :
    (startPhase c data).2.length + 1 = if c = .byStart then max data.length 1 else data.length + 1 := by
  cases c with
  | byInit => rfl
  | byReset => rfl
  | byStart =>
    rw [if_pos rfl]
    cases data with
    | nil => rfl
    | cons b rest => exact (max_eq_left (by simp)).symm

end Sys2Proof.Machine
end

section
/-! PROOFS. The statements about the host procedure: what it presents and leaves (42_message_hash.md R63, R65), and in
how many edges (70_reset_and_hazards.md R86). -/
namespace Sys2Proof.Machine

/-- Settles O43: HOLD edges left out, a plan's commands are one of the forms of its message. -/
theorem hostPresentsTheMessage : Obligations.HostPresentsTheMessage :=
  presentsMessage_hostCommands

/-- Settles O44: the check passes bytes, and what is then presented leaves the hash in `H`, a number of 32 bits. -/
theorem hostCallLeavesTheHashInTheBlock : Obligations.HostCallLeavesTheHashInTheBlock :=
  fun plan look data s => ⟨djbHash_of_ok (asBytes_map_toNat data) plan look s, (messageHash data).isLt⟩

/-- Settles O47: besides HOLDs a call presents the command of its start and one ABSORB per byte left. -/
theorem edgesOfAHostCallAreCounted : Obligations.EdgesOfAHostCallAreCounted := by
  intro plan data
  have hlength : (withoutHolds (hostCommands plan data)).length = (startPhase plan.start data).2.length + 1 := by
    rw [withoutHolds_hostCommands, List.length_cons, length_absorbCommands]
  rw [length_eq_length_withoutHolds_add (hostCommands plan data), hlength, length_startPhase]

end Sys2Proof.Machine
end

section
/-! SUPPORT. Numbers as edge words (30_encoding.md R38), the bits an instruction ignores (R41), and lines with one
operand (R43). -/
namespace Sys2Proof.Machine

theorem edgeOfNumber_of_lt {w : Nat} (hw : w < 2 ^ 11) : edgeOfNumber w = .ok (BitVec.ofNat 11 w) :=
  if_pos (decide_eq_true hw)

theorem edgeOfNumber_of_le {w : Nat} (hw : 2 ^ 11 ≤ w) : edgeOfNumber w = .error .moreThanElevenBits :=
  if_neg (by rw [isEdgeNumber, decide_eq_true_iff]; omega)

theorem decodeNumber_of_lt {w : Nat} (hw : w < 2 ^ 11) : decodeNumber w = .ok (decode (BitVec.ofNat 11 w)) := by
  rw [decodeNumber, edgeOfNumber_of_lt hw]

theorem decodeNumber_of_le {w : Nat} (hw : 2 ^ 11 ≤ w) : decodeNumber w = .error .moreThanElevenBits := by
  rw [decodeNumber, edgeOfNumber_of_le hw]

/-- An edge word presented in front is what the next step runs. -/
theorem step_present_singleton (s : State) (ew : EdgeWord) : step (s.present [ew]) = exec (decode ew) s :=
  step_of_pending rfl

/-- Clearing the ignored bits of a word gives the canonical word of what it decodes to. -/
theorem encode_decode (ew : EdgeWord) : encode (decode ew) = ew &&& ~~~ ignoredBits (decode ew) := by
  have hcmd : ~~~ (0x3FF#11) = 0x400#11 := rfl
  have hdata : ~~~ (0x0FF#11) = 0x700#11 := rfl
  have hnone : ~~~ (0x000#11) = BitVec.allOnes 11 := rfl
  obtain ⟨cmd, rfl⟩ | ⟨d, rfl⟩ | ⟨d, rfl⟩ | ⟨d, rfl⟩ | ⟨d, rfl⟩ := edgeWord_cases ew
  · rw [decode_edgeWord_true, encode, ignoredBits, hcmd, reset_bit_of_word]
    rfl
  · rw [decode_edgeWord_false, decodeCmd_hold, encode, ignoredBits, hdata, pattern_of_word]
  · rw [decode_edgeWord_false, decodeCmd_absorb, encode, ignoredBits, hnone, BitVec.and_allOnes]
  · rw [decode_edgeWord_false, decodeCmd_init, encode, ignoredBits, hdata, pattern_of_word]
  · rw [decode_edgeWord_false, decodeCmd_start, encode, ignoredBits, hnone, BitVec.and_allOnes]

theorem assembleSource_of_not_wellFormed {l : SourceLine} (h : l.wellFormed = false) :
    assembleSource l = .error .operandOutOfRange := by
  rw [assembleSource, h, if_neg Bool.false_ne_true]

theorem isImm8_eq_false {n : Nat} (hn : 255 < n) : isImm8 n = false := decide_eq_false (by omega)

theorem isImm8_toNat (b : Byte) : isImm8 b.toNat = true := by
  have hb : b.toNat < 2 ^ 8 := b.isLt
  exact decide_eq_true (by omega)

theorem assembleSource_absorb (b : Byte) : assembleSource (.absorb b.toNat) = .ok [encode (.absorb b)] := by
  rw [assembleSource_of_wellFormed (l := .absorb _) (isImm8_toNat b), expansion, byteOfImm_toNat]
  rfl

theorem assembleSource_start (b : Byte) : assembleSource (.start b.toNat) = .ok [encode (.start b)] := by
  rw [assembleSource_of_wellFormed (l := .start _) (isImm8_toNat b), expansion, byteOfImm_toNat]
  rfl

end Sys2Proof.Machine
end

section
/-! SUPPORT. The text of a line: its blanks and comments (log entry 13), a byte written and read back (30_encoding.md
R43), and the lines of the disassembler (R41; log entry 14). -/
namespace Sys2Proof.Machine

@[simp] theorem skipBlanks_space (cs : List Char) : skipBlanks (' ' :: cs) = skipBlanks cs := rfl
@[simp] theorem skipBlanks_tab (cs : List Char) : skipBlanks ('\t' :: cs) = skipBlanks cs := rfl

/-- A line is read only after its leading blanks. -/
theorem assembleLine_congr {cs ds : List Char} (h : skipBlanks cs = skipBlanks ds) :
    assembleLine cs = assembleLine ds := by
  have hends : lineEnds cs = lineEnds ds := by rw [lineEnds, lineEnds, h]
  rw [assembleLine, assembleLine, parseLine, parseLine, hends, h]

/-- A list of `imm8` values is read only after its leading blanks. -/
theorem readImms_congr {cs ds : List Char} (h : skipBlanks cs = skipBlanks ds) (fuel : Nat) :
    readImms fuel cs = readImms fuel ds := by
  cases fuel with
  | zero => rfl
  | succ fuel => rw [readImms, readImms, h]

theorem readImms_succ_of_comma {cs rest : List Char} {n : Nat} (h : readImm (skipBlanks cs) = some (n, ',' :: rest))
    (fuel : Nat) : readImms (fuel + 1) cs = (readImms fuel rest).map (fun r => (n :: r.1, r.2)) := by
  rw [readImms, h]
  rfl

/-- The digits the spec writes are the digits it reads. -/
theorem hexDigit_hexChar : ∀ n < 16, hexDigit (hexChar n) = some n := by decide

theorem readImm_byteText (b : Byte) : readImm (byteText b) = some (b.toNat, []) := by
  have hb : b.toNat < 2 ^ 8 := b.isLt
  have hvalue : b.toNat / 16 * 16 + b.toNat % 16 = b.toNat := by omega
  rw [byteText, readImm, hexDigit_hexChar _ (by omega), Option.map_some, readDigits, hexDigit_hexChar _ (by omega)]
  dsimp only
  rw [readDigits, hvalue]

/-- A byte after a blank is the whole operand of its line. -/
theorem finishOperand_byteText (make : Nat → SourceLine) (b : Byte) :
    finishOperand make (readImm (skipBlanks (' ' :: byteText b))) = .ok (some (make b.toNat)) := by
  have hskip : skipBlanks (' ' :: byteText b) = byteText b := rfl
  rw [hskip, readImm_byteText]
  rfl

theorem assembleLine_absorb_byteText (b : Byte) :
    assembleLine ("ABSORB ".toList ++ byteText b) = .ok [encode (.absorb b)] := by
  have hparse : parseLine ("ABSORB ".toList ++ byteText b) =
      finishOperand .absorb (readImm (skipBlanks (' ' :: byteText b))) := rfl
  rw [assembleLine, hparse, finishOperand_byteText]
  exact assembleSource_absorb b

theorem assembleLine_start_byteText (b : Byte) :
    assembleLine ("START ".toList ++ byteText b) = .ok [encode (.start b)] := by
  have hparse : parseLine ("START ".toList ++ byteText b) =
      finishOperand .start (readImm (skipBlanks (' ' :: byteText b))) := rfl
  rw [assembleLine, hparse, finishOperand_byteText]
  exact assembleSource_start b

/-- What the disassembler appends for ignored bits is nothing, or a blank and a comment. -/
theorem ignoredComment_cases (ignored : EdgeWord) (note : List Char) :
    ignoredComment ignored (' ' :: ';' :: note) = [] ∨
    ∃ comment, ignoredComment ignored (' ' :: ';' :: note) = ' ' :: ';' :: comment := by
  rw [ignoredComment]
  split
  · exact .inl rfl
  · exact .inr ⟨_, rfl⟩

/-- A mnemonic without operand, with or without a comment. -/
theorem assembleLine_mnemonic_append {i : Instr} (hi : i = .reset ∨ i = .hold ∨ i = .init) {tail : List Char}
    (htail : tail = [] ∨ ∃ comment, tail = ' ' :: ';' :: comment) :
    assembleLine ((mnemonic i).toList ++ tail) = .ok [encode i] := by
  obtain rfl | ⟨comment, rfl⟩ := htail <;> obtain rfl | rfl | rfl := hi <;> rfl

theorem assembleLine_disassemble (ew : EdgeWord) : assembleLine (disassemble ew) = .ok [encode (decode ew)] := by
  rw [disassemble]
  cases decode ew with
  | reset => exact assembleLine_mnemonic_append (.inl rfl) (ignoredComment_cases _ _)
  | hold => exact assembleLine_mnemonic_append (.inr (.inl rfl)) (ignoredComment_cases _ _)
  | absorb b => exact assembleLine_absorb_byteText b
  | init => exact assembleLine_mnemonic_append (.inr (.inr rfl)) (ignoredComment_cases _ _)
  | start b => exact assembleLine_start_byteText b

end Sys2Proof.Machine
end

section
/-! PROOFS. The derived statements of 30_encoding.md: decoder and encoder (R37, R38, R41), the assembler's errors
(R43), and what a listing's text leaves open (log entries 7, 13, 14). -/
namespace Sys2Proof.Machine

/-- Settles O22: an encoded word is put together from its fields, which the decoder reads back. -/
theorem decodeEncodeIsIdentity : Obligations.DecodeEncodeIsIdentity :=
  decode_encode

/-- Settles O28: a line is refused exactly when it is not well formed; a number up to 255 is that of a byte. -/
theorem outOfRangeOperandsAreErrors : Obligations.OutOfRangeOperandsAreErrors := by
  refine ⟨fun _ => assembleSource_of_not_wellFormed, fun n hn => ⟨?absorb, ?start⟩, fun n hn => ?inRange, rfl, rfl, rfl⟩
  case absorb => exact assembleSource_of_not_wellFormed (l := .absorb n) (isImm8_eq_false hn)
  case start => exact assembleSource_of_not_wellFormed (l := .start n) (isImm8_eq_false hn)
  case inRange =>
    obtain ⟨b, rfl⟩ : ∃ b : Byte, b.toNat = n :=
      ⟨BitVec.ofNat 8 n, (BitVec.toNat_ofNat n 8).trans (Nat.mod_eq_of_lt (by omega))⟩
    exact ⟨_, _, assembleSource_absorb b, toNat_encode_absorb b, assembleSource_start b, toNat_encode_start b⟩

/-- Settles O20: six words by evaluation. -/
theorem wordsOfThePatternsDecode : Obligations.WordsOfThePatternsDecode := by
  unfold Obligations.WordsOfThePatternsDecode
  decide

/-- Settles O21: a number of more than 11 bits is rejected; any other is placed in front of what is pending. -/
theorem numbersAboveElevenBitsAreNoEdgeWords : Obligations.NumbersAboveElevenBitsAreNoEdgeWords := by
  refine ⟨fun _ => decodeNumber_of_le, fun s w hw => ?inRange⟩
  case inRange =>
    have hmod : w % 2 ^ 16 = w := Nat.mod_eq_of_lt (by omega)
    refine ⟨?_, ?_⟩
    · rw [decodeTableWord, hmod, decodeNumber_of_lt hw]
    · rw [State.withFetchWord, hmod, placeNumber_edge (decide_eq_true hw), step_present_singleton]

/-- Settles O23: by the kind of word, the mask keeps `rst` alone, `rst` and `op`, or the whole word. -/
theorem encodeDecodeClearsOnlyIgnoredBits : Obligations.EncodeDecodeClearsOnlyIgnoredBits :=
  encode_decode

/-- Settles O27: what is printed is a mnemonic with a comment that the assembler skips, or one with a byte it reads
back. -/
theorem disassembledTextAssemblesBack : Obligations.DisassembledTextAssemblesBack :=
  assembleLine_disassemble

/-- Settles O51: lines and lists are read after their leading blanks, and a comment ends its line. -/
theorem blanksAndCommentsAreNoEdges : Obligations.BlanksAndCommentsAreNoEdges :=
  ⟨fun cs => ⟨assembleLine_congr (skipBlanks_space cs), assembleLine_congr (skipBlanks_tab cs)⟩, rfl, fun _ => rfl,
    fun fuel cs => ⟨readImms_congr (skipBlanks_space cs) fuel, readImms_congr (skipBlanks_tab cs) fuel⟩,
    fun fuel _ _ _ h => readImms_succ_of_comma h fuel, by decide⟩

end Sys2Proof.Machine
end
